-- ==== Sys2Proof/Word.lean ====
section
/-! DEFINITION. The widths of the numbers this hardware handles (00_scope.md R8, R9, R10). -/

namespace Sys2Proof

/-- A u8, R10. -/
abbrev Byte := BitVec 8

/-- A u32: `mix_state`, `processed`, `fnv_state` and every intermediate value (R8 `W = 32`, R10, R13). -/
abbrev Word := BitVec 32

/-- A u64: only the result of `FINISH` is one (R10, R13). -/
abbrev DWord := BitVec 64

/-- A command word `cmd[39:0]` (R9 `CMD_BITS = 40`, R71). -/
abbrev CmdWord := BitVec 40

/-- A response word `rsp[65:0]` (R9 `RSP_BITS = 66`, R78). -/
abbrev RspWord := BitVec 66

end Sys2Proof
end

