-- ==== Sys2Proof/Config.lean ====
section
/-! DEFINITION. What one instance of the hardware fixes (00_scope.md R9). The parameter `HAS_FNV` is an
argument of the model: a state of an instance with it holds `fnv_state`, a state of an instance without it
does not (Machine/State.lean), so that every statement over all states speaks of both kinds of instance.
`LATENCY` is not modelled: no rule reads it (R200, U7; notes/assumptions/11.md). No rule leaves a value open
that an instruction reads, so there is no free value here. -/

namespace Sys2Proof

/-- The value of `HAS_FNV` in the one instance that `State.reset` is.
DESIGN CHOICE (notes/assumptions/1.md): the spec leaves the parameter OPEN (R9, D10); the model's reset state is the
larger instance, so that every row of the opcode table can run from it. `State.resetWith` is the reset state
under either value. -/
def Config.resetHasFnv : Bool := true

end Sys2Proof
end

