-- ==== Sys2Proof/Syntax.lean ====
section
/-! DEFINITION. The abstract commands (30_encoding.md R72, R77, R81): one constructor for each of the sixteen rows
of the opcode table. -/

namespace Sys2Proof

/-- The two contexts, R71 field `ctx`. -/
inductive Ctx where
  | m3
  | fnv
  deriving DecidableEq, Repr

/-- The four functions of a context, R71 field `fn`. -/
inductive Fn where
  | write
  | finish32
  | finish
  | init
  deriving DecidableEq, Repr

/-- A command, R81: a `WRITE` carries its 0 to 4 data bytes, the first byte of the stream first; the other
functions carry nothing. -/
inductive Instr where
  | m3Write0
  | m3Write1 (b0 : Byte)
  | m3Write2 (b0 b1 : Byte)
  | m3Write3 (b0 b1 b2 : Byte)
  | m3Write4 (b0 b1 b2 b3 : Byte)
  | m3Finish32
  | m3Finish
  | m3Init
  | fnvWrite0
  | fnvWrite1 (b0 : Byte)
  | fnvWrite2 (b0 b1 : Byte)
  | fnvWrite3 (b0 b1 b2 : Byte)
  | fnvWrite4 (b0 b1 b2 b3 : Byte)
  | fnvFinish32
  | fnvFinish
  | fnvInit
  deriving DecidableEq, Repr

/-- The context a command works on, R72. -/
def Instr.ctx : Instr → Ctx
  | .m3Write0 => .m3
  | .m3Write1 _ => .m3
  | .m3Write2 _ _ => .m3
  | .m3Write3 _ _ _ => .m3
  | .m3Write4 _ _ _ _ => .m3
  | .m3Finish32 => .m3
  | .m3Finish => .m3
  | .m3Init => .m3
  | .fnvWrite0 => .fnv
  | .fnvWrite1 _ => .fnv
  | .fnvWrite2 _ _ => .fnv
  | .fnvWrite3 _ _ _ => .fnv
  | .fnvWrite4 _ _ _ _ => .fnv
  | .fnvFinish32 => .fnv
  | .fnvFinish => .fnv
  | .fnvInit => .fnv

/-- The function a command performs, R72. -/
def Instr.fn : Instr → Fn
  | .m3Write0 => .write
  | .m3Write1 _ => .write
  | .m3Write2 _ _ => .write
  | .m3Write3 _ _ _ => .write
  | .m3Write4 _ _ _ _ => .write
  | .m3Finish32 => .finish32
  | .m3Finish => .finish
  | .m3Init => .init
  | .fnvWrite0 => .write
  | .fnvWrite1 _ => .write
  | .fnvWrite2 _ _ => .write
  | .fnvWrite3 _ _ _ => .write
  | .fnvWrite4 _ _ _ _ => .write
  | .fnvFinish32 => .finish32
  | .fnvFinish => .finish
  | .fnvInit => .init

/-- The data bytes of a command in stream order (R75); none for a command that is no `WRITE`. -/
def Instr.bytes : Instr → List Byte
  | .m3Write0 => []
  | .m3Write1 b0 => [b0]
  | .m3Write2 b0 b1 => [b0, b1]
  | .m3Write3 b0 b1 b2 => [b0, b1, b2]
  | .m3Write4 b0 b1 b2 b3 => [b0, b1, b2, b3]
  | .m3Finish32 => []
  | .m3Finish => []
  | .m3Init => []
  | .fnvWrite0 => []
  | .fnvWrite1 b0 => [b0]
  | .fnvWrite2 b0 b1 => [b0, b1]
  | .fnvWrite3 b0 b1 b2 => [b0, b1, b2]
  | .fnvWrite4 b0 b1 b2 b3 => [b0, b1, b2, b3]
  | .fnvFinish32 => []
  | .fnvFinish => []
  | .fnvInit => []

end Sys2Proof
end

