-- ==== Sys2Proof/WellFormed.lean ====
section
/-! DEFINITION. Which commands an instance of the hardware has (00_scope.md R9, 30_encoding.md R72). The operand
widths are in the types of the constructors, so the one check left is the presence of the extension. -/

namespace Sys2Proof

/-- The command exists in an instance whose `HAS_FNV` is `hasFnv`: the four `FNV` functions exist only with the
extension (R72, R77 check 2, R84 (2)). -/
def Instr.wf (hasFnv : Bool) (i : Instr) : Bool :=
  match i.ctx with
  | .m3 => true
  | .fnv => hasFnv

end Sys2Proof
end

