-- ==== Sys2Proof/Decode.lean ====
section
/-! DEFINITION. The command word: its fields, the decoder that is total on every 40-bit word, and the encoder
(30_encoding.md R71 to R77, R81, R82, R84, R89). -/

namespace Sys2Proof

/-- Why a word spells no command: the five checks of R77, in their order. R174: a model may report the first
failing check for diagnostics; the block answers all of them alike. -/
inductive DecodeError where
  /-- check 1: `cmd[39:38]` is not `00` -/
  | reservedBits
  /-- check 2: `ctx = 1` and the instance has no FNV-1a context -/
  | absentExtension
  /-- check 3: a `FINISH32`, `FINISH` or `INIT` with `len` or `data` not zero -/
  | operandsOfZ
  /-- check 4: a `WRITE` with `len` 5, 6 or 7 -/
  | reservedLength
  /-- check 5: a `WRITE` with a lane at or above `len` not zero -/
  | unusedLanes
  deriving DecidableEq, Repr

/-- `rsv = cmd[39:38]`, R71. -/
def cmdRsv (w : CmdWord) : BitVec 2 := w.extractLsb' 38 2

/-- `ctx = cmd[37]`, R71. -/
def cmdCtx (w : CmdWord) : BitVec 1 := w.extractLsb' 37 1

/-- `fn = cmd[36:35]`, R71. -/
def cmdFn (w : CmdWord) : BitVec 2 := w.extractLsb' 35 2

/-- `len = cmd[34:32]`, R71, R74: an unsigned count. -/
def cmdLen (w : CmdWord) : BitVec 3 := w.extractLsb' 32 3

/-- `data = cmd[31:0]`, R71. -/
def cmdData (w : CmdWord) : Word := w.extractLsb' 0 32

/-- Byte lane `i` of the data field, `cmd[8i+7:8i]` (R53, R71). -/
def cmdLane (w : CmdWord) (i : Nat) : Byte := w.extractLsb' (8 * i) 8

/-- The context a `ctx` bit names, R71. -/
def ctxOfBit (b : BitVec 1) : Ctx := if b = 0 then .m3 else .fnv

/-- The `ctx` bit of a context, R71. -/
def ctxBit : Ctx → BitVec 1
  | .m3 => 0
  | .fnv => 1

/-- The `fn` code of a function, R71. -/
def fnCode : Fn → BitVec 2
  | .write => 0
  | .finish32 => 1
  | .finish => 2
  | .init => 3

/-- The command of format `Z` with the function code `fn` (R72): `01`, `10`, and otherwise `11`. -/
def zCommand (c : Ctx) (fn : BitVec 2) : Instr :=
  match c with
  | .m3 => if fn = 1 then .m3Finish32 else if fn = 2 then .m3Finish else .m3Init
  | .fnv => if fn = 1 then .fnvFinish32 else if fn = 2 then .fnvFinish else .fnvInit

/-- The `WRITE` of the first `len` of four lanes, lane 0 first (R75, formats `W0` to `W4` of R73). -/
def writeCommand (c : Ctx) (len : BitVec 3) (l0 l1 l2 l3 : Byte) : Instr :=
  match c with
  | .m3 =>
    if len = 0 then .m3Write0
    else if len = 1 then .m3Write1 l0
    else if len = 2 then .m3Write2 l0 l1
    else if len = 3 then .m3Write3 l0 l1 l2
    else .m3Write4 l0 l1 l2 l3
  | .fnv =>
    if len = 0 then .fnvWrite0
    else if len = 1 then .fnvWrite1 l0
    else if len = 2 then .fnvWrite2 l0 l1
    else if len = 3 then .fnvWrite3 l0 l1 l2
    else .fnvWrite4 l0 l1 l2 l3

/-- The decoder of R77, total on every 40-bit word: a function of the word and of `HAS_FNV` alone (R86). -/
def decode (hasFnv : Bool) (w : CmdWord) : Except DecodeError Instr :=
  if cmdRsv w ≠ 0 then .error .reservedBits
  else if ctxOfBit (cmdCtx w) = .fnv ∧ hasFnv = false then .error .absentExtension
  else if cmdFn w ≠ 0 then
    if cmdLen w ≠ 0 ∨ cmdData w ≠ 0 then .error .operandsOfZ
    else .ok (zCommand (ctxOfBit (cmdCtx w)) (cmdFn w))
  else if cmdLen w > 4 then .error .reservedLength
  else if cmdData w >>> (8 * (cmdLen w).toNat) ≠ 0 then .error .unusedLanes
  else .ok (writeCommand (ctxOfBit (cmdCtx w)) (cmdLen w) (cmdLane w 0) (cmdLane w 1) (cmdLane w 2) (cmdLane w 3))

/-- The instruction that a word read as a number stands for, in the instance that `State.reset` is
(`Config.resetHasFnv`). The port is 40 bits wide; the bits of `w` at and above `nbits` are taken as 0. -/
def decodeTableWord (nbits w : Nat) : Option Instr :=
  match decode Config.resetHasFnv (BitVec.ofNat 40 (w % 2 ^ nbits)) with
  | .ok i => some i
  | .error _ => none

/-- A command word from its fields, most significant first, as R71 pictures it, with `rsv = 00`. -/
def commandWord (c : Ctx) (fn : Fn) (len : BitVec 3) (l3 l2 l1 l0 : Byte) : CmdWord :=
  0#2 ++ ctxBit c ++ fnCode fn ++ len ++ l3 ++ l2 ++ l1 ++ l0

/-- The encoder, R82 and R89: `len` is the number of data bytes, lane `i` the byte `i`, an absent byte 0. -/
def encode (i : Instr) : CmdWord :=
  commandWord i.ctx i.fn (BitVec.ofNat 3 i.bytes.length)
    (i.bytes.getD 3 0) (i.bytes.getD 2 0) (i.bytes.getD 1 0) (i.bytes.getD 0 0)

end Sys2Proof
end

