-- ==== Sys2Proof/Machine/Constants.lean ====
section
/-! DEFINITION. The fixed parameters of the two hash functions (00_scope.md R8). All are hardwired (R32). -/

namespace Sys2Proof.Machine

/-- `SEED`, R8 and R2: the reset value of `mix_state`. -/
def seed : Word := 0

/-- `C1`, R8. -/
def c1 : Word := 0xcc9e2d51

/-- `C2`, R8. -/
def c2 : Word := 0x1b873593

/-- `ROT_K`, R8. -/
def rotK : Nat := 15

/-- `ROT_H`, R8. -/
def rotH : Nat := 13

/-- `M5`, R8. -/
def m5 : Word := 5

/-- `N`, R8. -/
def nAdd : Word := 0xe6546b64

/-- `FM1`, R8. -/
def fm1 : Word := 0x85ebca6b

/-- `FM2`, R8. -/
def fm2 : Word := 0xc2b2ae35

/-- `SH1`, R8. -/
def sh1 : Nat := 16

/-- `SH2`, R8. -/
def sh2 : Nat := 13

/-- `SH3`, R8. -/
def sh3 : Nat := 16

/-- `FNV_BASIS`, R8 and R29. -/
def fnvBasis : Word := 0x811c9dc5

/-- `FNV_PRIME`, R8. -/
def fnvPrime : Word := 0x01000193

end Sys2Proof.Machine
end

