-- ==== Sys2Proof/Machine/State.lean ====
section
/-! DEFINITION. The state of the block, of its two ports and of its reset input, as plain data (10_state.md R20 to
R40; 70_reset_and_hazards.md R190, R191, R202), the outcomes of a step, and the reset state. -/

namespace Sys2Proof.Machine

/-- The carry buffer and `carry_len` together: the 0 to 3 pending bytes, the oldest first (R23, R24).
The four constructors are the four values of `carry_len`, so no other value can be written down (R39). Positions at
and above `carry_len` are stale and no architectural state (R26), so they do not exist here, as R25 and D17
recommend (notes/assumptions/6.md). -/
inductive Carry where
  | zero
  | one (a0 : Byte)
  | two (a0 a1 : Byte)
  | three (a0 a1 a2 : Byte)
  deriving DecidableEq, Repr

/-- The MurmurHash3 context, R20: `mix_state` (R21), `processed` (R22), and `carry` with `carry_len` (R23, R24). -/
structure M3Context where
  mixState : Word
  processed : Word
  carry : Carry
  deriving DecidableEq, Repr

/-- What a completed command hands back. `FINISH32` and `FINISH` keep result types of their own, a u32 and a u64
(R79, D21); construction and `write` return nothing. -/
inductive Result where
  | none
  | hash32 (r : Word)
  | hash64 (r : DWord)
  deriving DecidableEq, Repr

/-- A response: the two status codes that exist (R171, U5), `OK` with its result and `ILLEGAL`. Its 66-bit word is
`Response.word` (Machine/Flags.lean). -/
inductive Response where
  | ok (r : Result)
  | illegal
  deriving DecidableEq, Repr

/-- What the host sends (R70, R201): a word on the command port, or a pulse of the reset input, which is an event
between commands (R192). -/
inductive HostEvent where
  | command (w : CmdWord)
  | reset
  deriving DecidableEq, Repr

/-- The state.

The block's own: the MurmurHash3 context `m3` (`N_M3_CTX = 1`, R9), and `fnvState` (R29). `fnvState = some v` is an
instance with `HAS_FNV`, whose accumulator holds `v`; `fnvState = none` is an instance without it, where the register
does not exist (R29, R38, D10); no step turns one into the other.

`wasReset` says whether the reset input has been pulsed yet: before that every register is unspecified and the model
refuses commands (R18 (c), R191, U3).

The ports: `input` is what the host has yet to send, first to last (the host's command list of R30 and R202, not
state of the block), and `output` the responses given so far, first to last (R70, R202). There is no program
counter, no flag, no control register and no addressable memory (R30 to R33), and nothing is in flight between
commands (R34). -/
structure State where
  m3 : M3Context
  fnvState : Option Word
  wasReset : Bool
  input : List HostEvent
  output : List Response
  deriving DecidableEq, Repr

/-- No step faults: "no operation of the block can fail" (R170), the list of synchronous exceptions is empty, and an
undecodable word is answered, not trapped (R172, R176). The type has no constructor, so no model of this interface
can raise one. Safe. -/
inductive Fault where
  deriving DecidableEq, Repr

/-- Why a step is refused. -/
inductive Refusal where
  /-- An instruction with no meaning yet. Raised by no arm: every instruction has its meaning. Safe. -/
  | notModelled (mnemonic : String)
  /-- A command before the first reset. Raised by `step`: the state is unspecified there and R18 (c), R191 and U3 ask
  a model to refuse. Safe: nothing can be proved of what the hardware does there. -/
  | beforeFirstReset
  deriving DecidableEq, Repr

/-- The state right after reset of an instance with or without the FNV-1a context (R37, R38, R190), its host having
sent nothing yet: R191's launch state. -/
def State.resetWith (hasFnv : Bool) : State where
  m3 := { mixState := seed, processed := 0, carry := .zero }
  fnvState := if hasFnv then some fnvBasis else none
  wasReset := true
  input := []
  output := []

/-- The state right after reset of the instance that `Config.resetHasFnv` names (notes/assumptions/1.md). -/
def State.reset : State := State.resetWith Config.resetHasFnv

end Sys2Proof.Machine
end

