-- ==== Sys2Proof/Machine/Ops.lean ====
section
/-! DEFINITION. The shared operations: the arithmetic primitives of 00_scope.md R12 and R14, construction of a
context (10_state.md R37), answering a command (30_encoding.md R70, R78), the answer to a word that spells no command
(60_exceptions.md R172), taking the host's next event and the reset input (70_reset_and_hazards.md R190, R192).
There is no exception to take and none to return from (R170, R176, R177): the answer `ILLEGAL` is the one outcome
besides `OK`. -/

namespace Sys2Proof.Machine

/-! ### Arithmetic on u32, R12 -/

/-- `add32(a, b) = (a + b) mod 2^32`. -/
def add32 (a b : Word) : Word := a + b

/-- `mul32(a, b) = (a * b) mod 2^32`: the low 32 bits of the product (R13). -/
def mul32 (a b : Word) : Word := a * b

/-- `xor32(a, b)`, bitwise. -/
def xor32 (a b : Word) : Word := a ^^^ b

/-- `or32(a, b)`, bitwise. -/
def or32 (a b : Word) : Word := a ||| b

/-- `shr32(a, s)`: logical shift right, zeros enter at the top. -/
def shr32 (a : Word) (s : Nat) : Word := a >>> s

/-- `shl32(a, s)`: shift left, zeros enter at the bottom. -/
def shl32 (a : Word) (s : Nat) : Word := a <<< s

/-- `rotl32(a, r)`: rotate left. -/
def rotl32 (a : Word) (r : Nat) : Word := a.rotateLeft r

/-- `zext_32(b)` of a byte, R14. -/
def zext32 (b : Byte) : Word := b.setWidth 32

/-- `zext_64(v)` of a u32, R14. -/
def zext64 (v : Word) : DWord := v.setWidth 64

/-! ### The state's small operations -/

/-- `HAS_FNV` of the instance whose state this is (R9). -/
def State.hasFnv (s : State) : Bool := s.fnvState.isSome

/-- The MurmurHash3 context replaced. -/
def State.setM3 (s : State) (m : M3Context) : State := { s with m3 := m }

/-- `fnv_state` replaced. -/
def State.setFnv (s : State) (v : Word) : State := { s with fnvState := some v }

/-- `respond(status, rdata)`: the response leaves on the response port after all earlier ones (R60, R70, R80). -/
def State.respond (s : State) (r : Response) : State := { s with output := s.output ++ [r] }

/-- The zero state of a MurmurHash3 context, R37: what construction makes. -/
def m3Zero : M3Context := { mixState := seed, processed := 0, carry := .zero }

/-- A command on the MurmurHash3 context: `f` gives the new context and the result, and the answer is `OK`. -/
def onM3 (s : State) (f : M3Context → M3Context × Result) : Host.Outcome State Fault Refusal :=
  .next ((s.setM3 (f s.m3).1).respond (.ok (f s.m3).2))

/-- The answer to a word that spells no command: `respond(ILLEGAL, 0)` and no change of any state element; nothing is
latched or counted (R84, R172). -/
def answerIllegal (s : State) : Host.Outcome State Fault Refusal :=
  .next (s.respond .illegal)

/-- A command on the FNV-1a context: `f` gives the new accumulator and the result, and the answer is `OK`. In an
instance without the context the command's word is illegal (R84 (2)) and is answered so. -/
def onFnv (s : State) (f : Word → Word × Result) : Host.Outcome State Fault Refusal :=
  match s.fnvState with
  | some v => .next ((s.setFnv (f v).1).respond (.ok (f v).2))
  | none => answerIllegal s

/-! ### The host's events -/

/-- The host's next event, and the state once the block has taken it; `none` while the host sends nothing. -/
def State.accept (s : State) : Option (HostEvent × State) :=
  match s.input with
  | [] => none
  | e :: rest => some (e, { s with input := rest })

/-- The reset input, R190 and R192: every context is constructed, both streams are discarded; the host gets nothing
back (R201), and the events it has yet to send stand. From here on commands are no longer refused (R191). -/
def State.pulseReset (s : State) : State :=
  { s with m3 := m3Zero, fnvState := s.fnvState.map (fun _ => fnvBasis), wasReset := true }

/-- The block while the host sends nothing: "all state survives any wait between commands" (R181). -/
def State.wait (s : State) : State := s

/-- `w` put where the block takes its next command, before everything the host has yet to send. -/
def State.sendFirst (s : State) (w : CmdWord) : State := { s with input := .command w :: s.input }

end Sys2Proof.Machine
end

