-- ==== Sys2Proof/Machine/Fnv.lean ====
section
/-! DEFINITION. The optional FNV-1a context: `FNV.INIT`, `FNV.WRITE`, `FNV.FINISH32`, `FNV.FINISH`
(42_fnv1a.md R150 to R154). In an instance without it these four are illegal words (R84 (2)), which `onFnv` answers. -/

namespace Sys2Proof.Machine

/-- `FnvStep(s, b)`, R151: XOR first, then the wrapping multiply. -/
def fnvStep (v : Word) (b : Byte) : Word :=
  mul32 (xor32 v (zext32 b)) fnvPrime

/-- `FnvWrite(bs)`, R151: one step a byte, in stream order. -/
def fnvWrite (bs : List Byte) (v : Word) : Word :=
  bs.foldl fnvStep v

/-- One beat of the FNV-1a `write`, R152. -/
def fnvBeat (bs : List Byte) (s : State) : Host.Outcome State Fault Refusal :=
  onFnv s (fun v => (fnvWrite bs v, .none))

/-- `FNV.WRITE` with no byte, R152. -/
def execFnvWrite0 (s : State) : Host.Outcome State Fault Refusal :=
  fnvBeat [] s

/-- `FNV.WRITE b0`, R152. -/
def execFnvWrite1 (b0 : Byte) (s : State) : Host.Outcome State Fault Refusal :=
  fnvBeat [b0] s

/-- `FNV.WRITE b0,b1`, R152. -/
def execFnvWrite2 (b0 b1 : Byte) (s : State) : Host.Outcome State Fault Refusal :=
  fnvBeat [b0, b1] s

/-- `FNV.WRITE b0,b1,b2`, R152. -/
def execFnvWrite3 (b0 b1 b2 : Byte) (s : State) : Host.Outcome State Fault Refusal :=
  fnvBeat [b0, b1, b2] s

/-- `FNV.WRITE b0,b1,b2,b3`, R152. -/
def execFnvWrite4 (b0 b1 b2 b3 : Byte) (s : State) : Host.Outcome State Fault Refusal :=
  fnvBeat [b0, b1, b2, b3] s

/-- `FNV.FINISH32`, R153: the accumulator itself, no finalization. -/
def execFnvFinish32 (s : State) : Host.Outcome State Fault Refusal :=
  onFnv s (fun v => (v, .hash32 v))

/-- `FNV.FINISH`, R154: the same widened by zero extension. -/
def execFnvFinish (s : State) : Host.Outcome State Fault Refusal :=
  onFnv s (fun v => (v, .hash64 (zext64 v)))

/-- `FNV.INIT`, R150. -/
def execFnvInit (s : State) : Host.Outcome State Fault Refusal :=
  onFnv s (fun _ => (fnvBasis, .none))

end Sys2Proof.Machine
end

