-- ==== Sys2Proof/Machine/Mix.lean ====
section
/-! DEFINITION. The three mixing functions of MurmurHash3 x86_32 (40_murmur3_write.md R100, R101;
41_murmur3_finish.md R133). They read and write no state. -/

namespace Sys2Proof.Machine

/-- `KMix(k)`, R100: steps 1 to 3 of the block mix. -/
def kMix (k : Word) : Word :=
  let k1 := mul32 k c1
  let k2 := rotl32 k1 rotK
  mul32 k2 c2

/-- `BlockMix(h, k)`, R101: all six steps. -/
def blockMix (h k : Word) : Word :=
  let h4 := xor32 h (kMix k)
  let h5 := rotl32 h4 rotH
  add32 (mul32 h5 m5) nAdd

/-- `Fmix(x)`, R133: the finalization mix after the XOR with `processed`, which the caller does. -/
def fmix (x : Word) : Word :=
  let a := xor32 x (shr32 x sh1)
  let b := mul32 a fm1
  let c := xor32 b (shr32 b sh2)
  let d := mul32 c fm2
  xor32 d (shr32 d sh3)

end Sys2Proof.Machine
end

