-- ==== Sys2Proof/Machine/Operands.lean ====
section
/-! DEFINITION. Bytes combined into numbers: the block value and the tail value (00_scope.md R16, 20_memory.md R50 to R52,
41_murmur3_finish.md R131), and the carry as a byte sequence (10_state.md R23, R24). The byte lanes of a command word are in
Decode.lean. -/

namespace Sys2Proof.Machine

/-- `le32(b0, b1, b2, b3)`, R16: the little-endian value of four bytes, the earliest byte `b0` lowest. -/
def le32 (b0 b1 b2 b3 : Byte) : Word :=
  or32 (or32 (or32 (zext32 b0) (shl32 (zext32 b1) 8)) (shl32 (zext32 b2) 16)) (shl32 (zext32 b3) 24)

/-- Four bytes of a complete block in arrival order (R19 "Block"). -/
abbrev Block := Byte × Byte × Byte × Byte

/-- The value of a complete block, R50. -/
def blockValue (b : Block) : Word := le32 b.1 b.2.1 b.2.2.1 b.2.2.2

/-- The full four-byte chunks of a byte sequence, from the front (R105). -/
def blocksOf : List Byte → List Block
  | b0 :: b1 :: b2 :: b3 :: rest => (b0, b1, b2, b3) :: blocksOf rest
  | _ => []

/-- The 0 to 3 bytes behind the last full chunk, as a carry (R105). -/
def remainderOf : List Byte → Carry
  | [] => .zero
  | [a0] => .one a0
  | [a0, a1] => .two a0 a1
  | [a0, a1, a2] => .three a0 a1 a2
  | _ :: _ :: _ :: _ :: rest => remainderOf rest

/-- The loop of R131 from byte `i` on: each byte contributes `byte << (8*i)`, XORed into `k`. -/
def tailLoop (k : Word) (i : Nat) : List Byte → Word
  | [] => k
  | b :: bs => tailLoop (xor32 k (shl32 (zext32 b) (8 * i))) (i + 1) bs

/-- `TailK()`, R131 and R51, of the pending bytes. -/
def tailK (bs : List Byte) : Word := tailLoop 0 0 bs

/-- The valid pending bytes `carry[0..carry_len-1]`, the oldest first (R24, R52). -/
def Carry.bytes : Carry → List Byte
  | .zero => []
  | .one a0 => [a0]
  | .two a0 a1 => [a0, a1]
  | .three a0 a1 a2 => [a0, a1, a2]

/-- `carry_len`, R23. -/
def Carry.len : Carry → Nat
  | .zero => 0
  | .one _ => 1
  | .two _ _ => 2
  | .three _ _ _ => 3

/-- The pending bytes completed to a block by the front of `bs` (R50, R106): the block's value and what is left of `bs`.
`none` where nothing is pending, or where `bs` is too short. -/
def Carry.complete : Carry → List Byte → Option (Word × List Byte)
  | .one a0, b0 :: b1 :: b2 :: rest => some (le32 a0 b0 b1 b2, rest)
  | .two a0 a1, b0 :: b1 :: rest => some (le32 a0 a1 b0 b1, rest)
  | .three a0 a1 a2, b0 :: rest => some (le32 a0 a1 a2 b0, rest)
  | _, _ => none

/-- `bs` put behind the pending bytes, order preserved (R52, R107); used only where no block completes, so that nothing
but a remainder is there. -/
def Carry.append (c : Carry) (bs : List Byte) : Carry := remainderOf (c.bytes ++ bs)

end Sys2Proof.Machine
end

