-- ==== Sys2Proof/Machine/M3Finish.lean ====
section
/-! DEFINITION. `M3.FINISH32` and `M3.FINISH` (41_murmur3_finish.md R130 to R136). Both read the context and leave it as it is. -/

namespace Sys2Proof.Machine

/-- The local copy `h` once the tail is resolved, R132: steps 1 to 3 only, and nothing at all where no byte is pending. -/
def resolveTail (m : M3Context) : Word :=
  if m.carry.len > 0 then xor32 m.mixState (kMix (tailK m.carry.bytes)) else m.mixState

/-- `M3Finish32()`, R130. -/
def m3Finish32 (m : M3Context) : Word :=
  fmix (xor32 (resolveTail m) m.processed)

/-- `finish() -> u64`, R136: the hash widened by zero extension. -/
def m3Finish (m : M3Context) : DWord :=
  zext64 (m3Finish32 m)

/-- `M3.FINISH32`, R134, R135. -/
def execM3Finish32 (s : State) : Host.Outcome State Fault Refusal :=
  onM3 s (fun m => (m, .hash32 (m3Finish32 m)))

/-- `M3.FINISH`, R135, R136. -/
def execM3Finish (s : State) : Host.Outcome State Fault Refusal :=
  onM3 s (fun m => (m, .hash64 (m3Finish m)))

end Sys2Proof.Machine
end

