-- ==== Sys2Proof/Machine/M3Write.lean ====
section
/-! DEFINITION. `M3.INIT` and `M3.WRITE` (40_murmur3_write.md R103 to R112). -/

namespace Sys2Proof.Machine

/-- `MixAndBuffer(rs)`, R105, on `mix_state = h` with nothing pending: every full four-byte chunk is mixed, in ascending
order; the 0 to 3 bytes left become the carry. -/
def mixAndBuffer (h : Word) (rs : List Byte) : Word × Carry :=
  ((blocksOf rs).foldl (fun h b => blockMix h (blockValue b)) h, remainderOf rs)

/-- What `write` does to `mix_state` and the carry, R104's three cases: nothing pending, R105; a block completed by
the front of `bs`, which is mixed before the rest is taken as in R105, R106; too short to complete one, R107. -/
def absorb (h : Word) (c : Carry) (bs : List Byte) : Word × Carry :=
  match c with
  | .zero => mixAndBuffer h bs
  | c =>
    match c.complete bs with
    | some (k, rest) => mixAndBuffer (blockMix h k) rest
    | none => (h, c.append bs)

/-- `M3Write(bs)`, R104, for a byte sequence of any length: `processed` grows by the whole length modulo `2^32`
(R111, D23), in every case. -/
def m3Write (bs : List Byte) (m : M3Context) : M3Context :=
  let r := absorb m.mixState m.carry bs
  { mixState := r.1, processed := add32 m.processed (BitVec.ofNat 32 bs.length), carry := r.2 }

/-- One beat of the MurmurHash3 `write`, R108. -/
def m3Beat (bs : List Byte) (s : State) : Host.Outcome State Fault Refusal :=
  onM3 s (fun m => (m3Write bs m, .none))

/-- `M3.WRITE` with no byte, R108, R110. -/
def execM3Write0 (s : State) : Host.Outcome State Fault Refusal :=
  m3Beat [] s

/-- `M3.WRITE b0`, R108. -/
def execM3Write1 (b0 : Byte) (s : State) : Host.Outcome State Fault Refusal :=
  m3Beat [b0] s

/-- `M3.WRITE b0,b1`, R108. -/
def execM3Write2 (b0 b1 : Byte) (s : State) : Host.Outcome State Fault Refusal :=
  m3Beat [b0, b1] s

/-- `M3.WRITE b0,b1,b2`, R108. -/
def execM3Write3 (b0 b1 b2 : Byte) (s : State) : Host.Outcome State Fault Refusal :=
  m3Beat [b0, b1, b2] s

/-- `M3.WRITE b0,b1,b2,b3`, R108. -/
def execM3Write4 (b0 b1 b2 b3 : Byte) (s : State) : Host.Outcome State Fault Refusal :=
  m3Beat [b0, b1, b2, b3] s

/-- `M3.INIT`, R103: the context is constructed anew. -/
def execM3Init (s : State) : Host.Outcome State Fault Refusal :=
  onM3 s (fun _ => (m3Zero, .none))

end Sys2Proof.Machine
end

