-- ==== Sys2Proof/Machine/Dispatch.lean ====
section
/-! DEFINITION. The meaning of each command, one arm a constructor (60_exceptions.md R172). -/

namespace Sys2Proof.Machine

def exec (i : Instr) (s : State) : Host.Outcome State Fault Refusal :=
  match i with
  | .m3Write0 => Sys2Proof.Machine.execM3Write0 s
  | .m3Write1 b0 => Sys2Proof.Machine.execM3Write1 b0 s
  | .m3Write2 b0 b1 => Sys2Proof.Machine.execM3Write2 b0 b1 s
  | .m3Write3 b0 b1 b2 => Sys2Proof.Machine.execM3Write3 b0 b1 b2 s
  | .m3Write4 b0 b1 b2 b3 => Sys2Proof.Machine.execM3Write4 b0 b1 b2 b3 s
  | .m3Finish32 => Sys2Proof.Machine.execM3Finish32 s
  | .m3Finish => Sys2Proof.Machine.execM3Finish s
  | .m3Init => Sys2Proof.Machine.execM3Init s
  | .fnvWrite0 => Sys2Proof.Machine.execFnvWrite0 s
  | .fnvWrite1 b0 => Sys2Proof.Machine.execFnvWrite1 b0 s
  | .fnvWrite2 b0 b1 => Sys2Proof.Machine.execFnvWrite2 b0 b1 s
  | .fnvWrite3 b0 b1 b2 => Sys2Proof.Machine.execFnvWrite3 b0 b1 b2 s
  | .fnvWrite4 b0 b1 b2 b3 => Sys2Proof.Machine.execFnvWrite4 b0 b1 b2 b3 s
  | .fnvFinish32 => Sys2Proof.Machine.execFnvFinish32 s
  | .fnvFinish => Sys2Proof.Machine.execFnvFinish s
  | .fnvInit => Sys2Proof.Machine.execFnvInit s

end Sys2Proof.Machine
end

