-- ==== Sys2Proof/Machine/Step.lean ====
section
/-! DEFINITION. One step of the block: the host's next event, taken whole (20_memory.md R60, R61; 60_exceptions.md R172;
70_reset_and_hazards.md R191, R192). -/

namespace Sys2Proof.Machine

/-- One step. The host's next event is taken: a reset (R190); or a command word, which is refused before the first
reset (R191), and otherwise decoded and run, or answered `ILLEGAL` where it spells no command (R172). While the host
sends nothing the block waits (R181). -/
def step (s : State) : Host.Outcome State Fault Refusal :=
  match s.accept with
  | none => .next s.wait
  | some (.reset, s') => .next s'.pulseReset
  | some (.command w, s') =>
    if s'.wasReset then
      match decode s'.hasFnv w with
      | .ok i => exec i s'
      | .error _ => answerIllegal s'
    else .refused .beforeFirstReset

/-- `s` with one command word before everything the host has yet to send, so that the next step takes it. The port
is 40 bits wide; the bits of `w` at and above `nbits` are taken as 0. -/
def State.withFetchWord (s : State) (nbits w : Nat) : State :=
  s.sendFirst (BitVec.ofNat 40 (w % 2 ^ nbits))

end Sys2Proof.Machine
end

