-- ==== Sys2Proof/Machine/Pseudo.lean ====
section
/-! DEFINITION. The pseudo-operations: each is a list of commands and has no encoding of its own
(30_encoding.md R83, R88; 43_stream_ops_and_laws.md R161 to R163). -/

namespace Sys2Proof.Machine

/-- The one `WRITE` command that carries `bs`; none where there are more than four bytes (R58, R83). -/
def writeOf (c : Ctx) (bs : List Byte) : Option Instr :=
  match c with
  | .m3 =>
    match bs with
    | [] => some .m3Write0
    | [b0] => some (.m3Write1 b0)
    | [b0, b1] => some (.m3Write2 b0 b1)
    | [b0, b1, b2] => some (.m3Write3 b0 b1 b2)
    | [b0, b1, b2, b3] => some (.m3Write4 b0 b1 b2 b3)
    | _ :: _ :: _ :: _ :: _ :: _ => none
  | .fnv =>
    match bs with
    | [] => some .fnvWrite0
    | [b0] => some (.fnvWrite1 b0)
    | [b0, b1] => some (.fnvWrite2 b0 b1)
    | [b0, b1, b2] => some (.fnvWrite3 b0 b1 b2)
    | [b0, b1, b2, b3] => some (.fnvWrite4 b0 b1 b2 b3)
    | _ :: _ :: _ :: _ :: _ :: _ => none

/-- `M3.WRITEN bs`, the canonical expansion of R161: full beats first, then one beat for what is left. -/
def m3WriteN : List Byte → List Instr
  | b0 :: b1 :: b2 :: b3 :: rest => .m3Write4 b0 b1 b2 b3 :: m3WriteN rest
  | [b0, b1, b2] => [.m3Write3 b0 b1 b2]
  | [b0, b1] => [.m3Write2 b0 b1]
  | [b0] => [.m3Write1 b0]
  | [] => []

/-- `FNV.WRITEN bs`, R163: as `M3.WRITEN`. -/
def fnvWriteN : List Byte → List Instr
  | b0 :: b1 :: b2 :: b3 :: rest => .fnvWrite4 b0 b1 b2 b3 :: fnvWriteN rest
  | [b0, b1, b2] => [.fnvWrite3 b0 b1 b2]
  | [b0, b1] => [.fnvWrite2 b0 b1]
  | [b0] => [.fnvWrite1 b0]
  | [] => []

/-- `M3.HASH bs`, R162. -/
def m3Hash (bs : List Byte) : List Instr :=
  .m3Init :: (m3WriteN bs ++ [.m3Finish32])

/-- `FNV.HASH bs`, R163. -/
def fnvHash (bs : List Byte) : List Instr :=
  .fnvInit :: (fnvWriteN bs ++ [.fnvFinish32])

end Sys2Proof.Machine
end

