-- ==== Sys2Proof/Machine/Flags.lean ====
section
/-! DEFINITION. The block has no flags and no condition codes (10_state.md R31). The one status it gives is a field of a
response, which nothing stores and nothing reads later: the response word (30_encoding.md R78, R79; 60_exceptions.md R171). -/

namespace Sys2Proof.Machine

/-- The `status` field, R78 and R171: `00` is `OK`, `01` is `ILLEGAL`. -/
def Response.status : Response → BitVec 2
  | .ok _ => 0
  | .illegal => 1

/-- The result as 64 bits, R79: 0 where there is none, a u32 with a zero upper half (D21). -/
def Result.rdata : Result → DWord
  | .none => 0
  | .hash32 r => zext64 r
  | .hash64 r => r

/-- The `rdata` field, R78 and R79. -/
def Response.rdata : Response → DWord
  | .ok r => r.rdata
  | .illegal => 0

/-- The response word, R78: `rsp[65:64]` is `status`, `rsp[63:0]` is `rdata`. -/
def Response.word (r : Response) : RspWord := r.status ++ r.rdata

end Sys2Proof.Machine
end

