-- ==== Sys2Proof/Machine/Run.lean ====
section
/-! DEFINITION. Runs: a finite list of the host's events, taken first to last (10_state.md R30, 70_reset_and_hazards.md R202). -/

namespace Sys2Proof.Machine

/-- `s` with the host about to send exactly `es`. -/
def State.load (s : State) (es : List HostEvent) : State := { s with input := es }

/-- The run of the events `es` from `s`: one step for each. -/
def runEvents (es : List HostEvent) (s : State) : Host.Outcome State Fault Refusal :=
  Host.Core.run Sys2Proof.core es.length (s.load es)

/-- The events of a program: the words of its commands, as the encoder builds them (R201). -/
def eventsOf (is : List Instr) : List HostEvent := is.map (fun i => .command (encode i))

/-- The run of a program: its words over the command port. -/
def runProgram (is : List Instr) (s : State) : Host.Outcome State Fault Refusal := runEvents (eventsOf is) s

end Sys2Proof.Machine
end

