-- ==== Sys2Proof/Machine/Stream.lean ====
section
/-! DEFINITION. What the hashes are without the machine: the one-shot functions of a whole byte sequence
(41_murmur3_finish.md R139, 42_fnv1a.md R155), the state that stands for a logical stream (10_state.md R28), and the logical streams
that a list of the host's events makes (00_scope.md R19, 43_stream_ops_and_laws.md R169). The step does not use them. -/

namespace Sys2Proof.Machine

/-- `le32` of the bytes `4i` to `4i+3` of `S`. Every use has `i < len(S) / 4`, so no byte is missing. -/
def blockAt (S : List Byte) (i : Nat) : Word :=
  le32 (S.getD (4 * i) 0) (S.getD (4 * i + 1) 0) (S.getD (4 * i + 2) 0) (S.getD (4 * i + 3) 0)

/-- The fold of `BlockMix` over the complete blocks of `S`, starting from 0 (R28, R139). -/
def mixedBlocks (S : List Byte) : Word :=
  (List.range (S.length / 4)).foldl (fun h i => blockMix h (blockAt S i)) 0

/-- The value of the 1 to 3 bytes behind the last complete block of `S`, as R139 writes it. -/
def tailValue (S : List Byte) : Word :=
  let q := S.length / 4
  let r := S.length % 4
  let k0 := zext32 (S.getD (4 * q) 0)
  let k1 := if r ≥ 2 then or32 k0 (shl32 (zext32 (S.getD (4 * q + 1) 0)) 8) else k0
  if r = 3 then or32 k1 (shl32 (zext32 (S.getD (4 * q + 2) 0)) 16) else k1

/-- `Murmur3_32(S)`, R139: the one-shot MurmurHash3 x86_32 with seed 0, the length modulo `2^32`. -/
def murmur3_32 (S : List Byte) : Word :=
  let h := mixedBlocks S
  let h := if S.length % 4 > 0 then xor32 h (kMix (tailValue S)) else h
  fmix (xor32 h (BitVec.ofNat 32 S.length))

/-- `Fnv1a_32(S)`, R155. -/
def fnv1a_32 (S : List Byte) : Word := S.foldl fnvStep fnvBasis

/-- The context stands for the logical stream `S`: the four equations of R28. -/
def M3Context.Represents (m : M3Context) (S : List Byte) : Prop :=
  m.mixState = mixedBlocks S ∧
  m.processed.toNat = S.length % 2 ^ 32 ∧
  m.carry.len = S.length % 4 ∧
  ∀ j, j < S.length % 4 → m.carry.bytes[j]? = S[4 * (S.length / 4) + j]?

/-- The logical stream of the context `c` after one more command: a `WRITE` appends, `INIT` starts a new stream, the
finish operations and the other context's commands leave it (R19, R40, R169). -/
def streamAfterInstr (c : Ctx) (S : List Byte) (i : Instr) : List Byte :=
  if i.ctx = c then
    match i.fn with
    | .write => S ++ i.bytes
    | .init => []
    | .finish32 => S
    | .finish => S
  else S

/-- The same after one of the host's events: a reset starts a new stream (R192), a word that spells no command leaves
it (R172). -/
def streamAfter (hasFnv : Bool) (c : Ctx) (S : List Byte) : HostEvent → List Byte
  | .reset => []
  | .command w =>
    match decode hasFnv w with
    | .ok i => streamAfterInstr c S i
    | .error _ => S

/-- The logical stream of the context `c` after all of `es`, from a reset on. -/
def logicalStream (hasFnv : Bool) (c : Ctx) (es : List HostEvent) : List Byte :=
  es.foldl (streamAfter hasFnv c) []

end Sys2Proof.Machine
end

