-- ==== Sys2Proof/Safety.lean ====
section
/-! DEFINITION. What counts as a safe run, and the invariants that claims speak of. -/

namespace Sys2Proof.Machine

/-- A run of `n` steps is safe when no step of it faults or is refused (R170, R180). -/
def SafeRun (n : Nat) (s : State) : Prop := ∃ t, Host.Core.run Sys2Proof.core n s = .next t

/-- `carry_len = processed mod 4`, the derived invariant of R27. -/
def State.CountMatchesCarry (s : State) : Prop := s.m3.carry.len = s.m3.processed.toNat % 4

/-- Every response given has `rdata[63:32] = 0` (R79) and one of the two status codes that exist (R78, R171). -/
def State.ResponsesWellFormed (s : State) : Prop :=
  ∀ r ∈ s.output, r.word.extractLsb' 32 32 = 0 ∧ (r.word.extractLsb' 64 2 = 0 ∨ r.word.extractLsb' 64 2 = 1)

/-- The state stands for the logical streams `S` and `F` of its two contexts: R28, and R155 where the instance has the
FNV-1a context. -/
def State.Represents (s : State) (S F : List Byte) : Prop :=
  s.m3.Represents S ∧ ∀ v, s.fnvState = some v → v = fnv1a_32 F

end Sys2Proof.Machine
end

