-- ==== Sys2Proof/Certificates/Slice0/Obligations.lean ====
section
/-! DEFINITION. The statements about the model, for the provers: each one formalises the rules its docstring names. -/

open Sys2Proof Sys2Proof.Machine

/-! ### Arithmetic and byte order -/

/-- Every primitive against its formula over the natural numbers, for all the shift and rotate amounts that R12 allows.
The spec marks these definitions as general knowledge and not its source's (R12, 93_implementation_defined.md G2,
notes/assumptions/9.md). -/
def Obligations.ArithmeticPrimitivesFollowTheirFormulas : Prop :=
  ∀ (a b : Word),
    (add32 a b).toNat = (a.toNat + b.toNat) % 2 ^ 32 ∧
    (mul32 a b).toNat = (a.toNat * b.toNat) % 2 ^ 32 ∧
    (∀ i, i < 32 → (xor32 a b).getLsbD i = (a.getLsbD i ^^ b.getLsbD i)) ∧
    (∀ i, i < 32 → (or32 a b).getLsbD i = (a.getLsbD i || b.getLsbD i)) ∧
    (∀ s, s ≤ 31 → (shr32 a s).toNat = a.toNat / 2 ^ s) ∧
    (∀ s, s ≤ 31 → (shl32 a s).toNat = (a.toNat * 2 ^ s) % 2 ^ 32) ∧
    (∀ r, 1 ≤ r → r ≤ 31 → (rotl32 a r).toNat = (a.toNat * 2 ^ r) % 2 ^ 32 + a.toNat / 2 ^ (32 - r))

/-- R14: zero extension keeps the numeric value. -/
def Obligations.ZeroExtensionKeepsTheNumber : Prop :=
  (∀ v : Word, (zext64 v).toNat = v.toNat) ∧ (∀ b : Byte, (zext32 b).toNat = b.toNat)

/-- R16: the little-endian value of four bytes as a sum and as shifted bytes joined by OR, and the rule's example. -/
def Obligations.BlockValueIsLittleEndian : Prop :=
  (∀ b0 b1 b2 b3 : Byte,
    (le32 b0 b1 b2 b3).toNat = b0.toNat + 256 * b1.toNat + 65536 * b2.toNat + 16777216 * b3.toNat ∧
    le32 b0 b1 b2 b3 =
      or32 (or32 (or32 (zext32 b0) (shl32 (zext32 b1) 8)) (shl32 (zext32 b2) 16)) (shl32 (zext32 b3) 24)) ∧
  le32 0x21 0x43 0x65 0x87 = 0x87654321

/-- R131: the tail value as the XOR of the shifted pending bytes, its form for each pending length, the bits above the
pending bytes zero, and the rule's worked example. -/
def Obligations.TailValueCombinesThePendingBytes : Prop :=
  (∀ c : Carry,
    tailK c.bytes =
      (List.range c.len).foldl (fun k i => xor32 k (shl32 (zext32 (c.bytes.getD i 0)) (8 * i))) 0 ∧
    (tailK c.bytes).toNat < 2 ^ (8 * c.len)) ∧
  (∀ a0 : Byte, tailK (Carry.one a0).bytes = zext32 a0) ∧
  (∀ a0 a1 : Byte, tailK (Carry.two a0 a1).bytes = or32 (zext32 a0) (shl32 (zext32 a1) 8)) ∧
  (∀ a0 a1 a2 : Byte, tailK (Carry.three a0 a1 a2).bytes =
    or32 (or32 (zext32 a0) (shl32 (zext32 a1) 8)) (shl32 (zext32 a2) 16)) ∧
  tailK (Carry.three 0x21 0x43 0x65).bytes = 0x00654321

/-! ### The mixing functions -/

/-- R100: the three steps with the literals of R8, and the rule's corner cases and worked example. -/
def Obligations.KMixIsStepsOneToThree : Prop :=
  (∀ k k1 k2, k1 = mul32 k 0xcc9e2d51 → k2 = rotl32 k1 15 → kMix k = mul32 k2 0x1b873593) ∧
  kMix 0 = 0 ∧ kMix 0xffffffff = 0xbbeeb010 ∧ kMix 0x80000000 = 0xcd64c000 ∧
  mul32 1 0xcc9e2d51 = 0xcc9e2d51 ∧ rotl32 0xcc9e2d51 15 = 0x16a8e64f ∧ kMix 1 = 0xc3539a5d

/-- R101: the six steps with the literals of R8; step 6 wraps once at the end or after each operation alike; the rule's
corner cases and worked example. -/
def Obligations.BlockMixIsStepsOneToSix : Prop :=
  (∀ h k h4 h5, h4 = xor32 h (kMix k) → h5 = rotl32 h4 13 →
    blockMix h k = add32 (mul32 h5 5) 0xe6546b64 ∧
    (blockMix h k).toNat = (h5.toNat * 5 + 0xe6546b64) % 2 ^ 32) ∧
  blockMix 0 0 = 0xe6546b64 ∧ blockMix 0xffffffff 0 = 0xe6546b5f ∧ blockMix 0 0xffffffff = 0x145ee0d5 ∧
  kMix 0x87654321 = 0x5082edee ∧ rotl32 0x5082edee 13 = 0x5dbdca10 ∧ blockMix 0 0x87654321 = 0xbb095db4

/-- R133: the five lines of the finalization mix with the literals of R8, and the rule's corner cases and worked
example, line by line. -/
def Obligations.FmixIsTheFiveLines : Prop :=
  (∀ x a b c d, a = xor32 x (shr32 x 16) → b = mul32 a 0x85ebca6b → c = xor32 b (shr32 b 13) →
    d = mul32 c 0xc2b2ae35 → fmix x = xor32 d (shr32 d 16)) ∧
  fmix 0 = 0 ∧ fmix 1 = 0x514e28b7 ∧ fmix 0xffffffff = 0x81f16f39 ∧
  xor32 0x145ee0d1 (shr32 0x145ee0d1 16) = 0x145ef48f ∧ mul32 0x145ef48f 0x85ebca6b = 0x3aee0dc5 ∧
  xor32 0x3aee0dc5 (shr32 0x3aee0dc5 13) = 0x3aefdab5 ∧ mul32 0x3aefdab5 0xc2b2ae35 = 0x76294d79 ∧
  fmix 0x145ee0d1 = 0x76293b50

/-! ### The MurmurHash3 commands: results, completion, frame -/

/-- R103: `M3.INIT` completes in every state and leaves the zero state; nothing else changes but the response; its word;
the hash after it is 0. -/
def Obligations.M3InitConstructsTheZeroState : Prop :=
  (∀ s : State, exec .m3Init s =
    .next { s with m3 := { mixState := 0, processed := 0, carry := .zero }, output := s.output ++ [.ok .none] }) ∧
  encode .m3Init = 0x1800000000 ∧
  m3Finish32 { mixState := 0, processed := 0, carry := .zero } = 0

/-- The twenty cells of one beat, by pending length and beat length: the table of R109, which the spec marks as derived
from R104 to R107. Each cell is the whole next state, so it says that `M3.WRITE` completes and what it leaves unchanged. -/
def Obligations.WriteBeatFollowsTheTwentyCells : Prop :=
  ∀ (s : State) (h p : Word) (a0 a1 a2 b0 b1 b2 b3 : Byte),
    let cell := fun (c : Carry) (i : Instr) (n : Word) (h' : Word) (c' : Carry) =>
      exec i { s with m3 := { mixState := h, processed := p, carry := c } } =
        .next { s with m3 := { mixState := h', processed := add32 p n, carry := c' }, output := s.output ++ [.ok .none] }
    (cell .zero .m3Write0 0 h .zero ∧
     cell .zero (.m3Write1 b0) 1 h (.one b0) ∧
     cell .zero (.m3Write2 b0 b1) 2 h (.two b0 b1) ∧
     cell .zero (.m3Write3 b0 b1 b2) 3 h (.three b0 b1 b2) ∧
     cell .zero (.m3Write4 b0 b1 b2 b3) 4 (blockMix h (le32 b0 b1 b2 b3)) .zero) ∧
    (cell (.one a0) .m3Write0 0 h (.one a0) ∧
     cell (.one a0) (.m3Write1 b0) 1 h (.two a0 b0) ∧
     cell (.one a0) (.m3Write2 b0 b1) 2 h (.three a0 b0 b1) ∧
     cell (.one a0) (.m3Write3 b0 b1 b2) 3 (blockMix h (le32 a0 b0 b1 b2)) .zero ∧
     cell (.one a0) (.m3Write4 b0 b1 b2 b3) 4 (blockMix h (le32 a0 b0 b1 b2)) (.one b3)) ∧
    (cell (.two a0 a1) .m3Write0 0 h (.two a0 a1) ∧
     cell (.two a0 a1) (.m3Write1 b0) 1 h (.three a0 a1 b0) ∧
     cell (.two a0 a1) (.m3Write2 b0 b1) 2 (blockMix h (le32 a0 a1 b0 b1)) .zero ∧
     cell (.two a0 a1) (.m3Write3 b0 b1 b2) 3 (blockMix h (le32 a0 a1 b0 b1)) (.one b2) ∧
     cell (.two a0 a1) (.m3Write4 b0 b1 b2 b3) 4 (blockMix h (le32 a0 a1 b0 b1)) (.two b2 b3)) ∧
    (cell (.three a0 a1 a2) .m3Write0 0 h (.three a0 a1 a2) ∧
     cell (.three a0 a1 a2) (.m3Write1 b0) 1 (blockMix h (le32 a0 a1 a2 b0)) .zero ∧
     cell (.three a0 a1 a2) (.m3Write2 b0 b1) 2 (blockMix h (le32 a0 a1 a2 b0)) (.one b1) ∧
     cell (.three a0 a1 a2) (.m3Write3 b0 b1 b2) 3 (blockMix h (le32 a0 a1 a2 b0)) (.two b1 b2) ∧
     cell (.three a0 a1 a2) (.m3Write4 b0 b1 b2 b3) 4 (blockMix h (le32 a0 a1 a2 b0)) (.three b1 b2 b3))

/-- R108: a beat of any of the five forms does to the context what `M3Write` of its bytes does, in every state, and
answers `OK` with nothing; the number of its word; the rule's worked example. -/
def Obligations.M3WriteCommandIsM3WriteOfItsBytes : Prop :=
  (∀ (s : State) (i : Instr), i.ctx = .m3 → i.fn = .write →
    exec i s = .next { s with m3 := m3Write i.bytes s.m3, output := s.output ++ [.ok .none] } ∧
    (encode i).toNat = i.bytes.length * 2 ^ 32 +
      ((List.range i.bytes.length).map (fun j => (i.bytes.getD j 0).toNat * 2 ^ (8 * j))).sum) ∧
  encode (.m3Write4 0x21 0x43 0x65 0x87) = 0x0487654321 ∧
  m3Write [0x21, 0x43, 0x65, 0x87] { mixState := 0, processed := 0, carry := .zero } =
    { mixState := 0xbb095db4, processed := 4, carry := .zero }

/-- R104 to R107: `M3Write` of a byte sequence of any length. `processed` grows by the whole length in every case; with
nothing pending the full chunks are mixed in ascending order and the remainder is buffered; a pending carry that is
completed is mixed first, and the rest is taken as with nothing pending; otherwise the bytes are appended. The rules'
worked examples. -/
def Obligations.M3WriteFollowsItsThreeCases : Prop :=
  (∀ (m : M3Context) (bs : List Byte),
      (m3Write bs m).processed.toNat = (m.processed.toNat + bs.length) % 2 ^ 32 ∧
      (m.carry.len = 0 →
        (m3Write bs m).mixState =
          (List.range (bs.length / 4)).foldl (fun h i => blockMix h (blockAt bs i)) m.mixState ∧
        (m3Write bs m).carry.len = bs.length % 4 ∧
        (m3Write bs m).carry.bytes = bs.drop (4 * (bs.length / 4))) ∧
      (m.carry.len ≠ 0 → m.carry.len + bs.length ≥ 4 →
        let k := blockAt (m.carry.bytes ++ bs.take (4 - m.carry.len)) 0
        let rest := m3Write (bs.drop (4 - m.carry.len)) { m with mixState := blockMix m.mixState k, carry := .zero }
        (m3Write bs m).mixState = rest.mixState ∧ (m3Write bs m).carry = rest.carry) ∧
      (m.carry.len ≠ 0 → m.carry.len + bs.length < 4 →
        (m3Write bs m).mixState = m.mixState ∧
        (m3Write bs m).carry.len = m.carry.len + bs.length ∧
        (m3Write bs m).carry.bytes = m.carry.bytes ++ bs)) ∧
  m3Write [0x61, 0x62, 0x63, 0x64, 0x65, 0x66, 0x67] { mixState := 0, processed := 0, carry := .zero } =
    { mixState := 0x86a7049e, processed := 7, carry := .three 0x65 0x66 0x67 } ∧
  m3Write [0x64, 0x65, 0x66, 0x67] { mixState := 0, processed := 3, carry := .three 0x61 0x62 0x63 } =
    { mixState := 0x86a7049e, processed := 7, carry := .three 0x65 0x66 0x67 } ∧
  m3Write [0x62, 0x63] { mixState := 0, processed := 1, carry := .one 0x61 } =
    { mixState := 0, processed := 3, carry := .three 0x61 0x62 0x63 }

/-- R110: the empty write changes no state element whatever the state; any number of empty writes leaves the reset
state's contexts. -/
def Obligations.EmptyWriteChangesNothing : Prop :=
  (∀ s : State, exec .m3Write0 s = .next { s with output := s.output ++ [.ok .none] }) ∧
  encode .m3Write0 = 0x0000000000 ∧
  (∀ (hasFnv : Bool) (n : Nat), runProgram (List.replicate n .m3Write0) (State.resetWith hasFnv) =
    .next { State.resetWith hasFnv with output := List.replicate n (.ok .none) })

/-- R111: past `2^32` the count wraps, and a beat that wraps it completes and answers `OK`; nothing else of the write
depends on the count; the rule's worked example. -/
def Obligations.ProcessedWrapsSilently : Prop :=
  (∀ (m : M3Context) (bs : List Byte), bs.length < 2 ^ 32 → m.processed.toNat + bs.length ≥ 2 ^ 32 →
    (m3Write bs m).processed.toNat = m.processed.toNat + bs.length - 2 ^ 32) ∧
  (∀ (s : State) (i : Instr), i.ctx = .m3 → i.fn = .write → s.m3.processed.toNat + i.bytes.length ≥ 2 ^ 32 →
    ∃ t, exec i s = .next t ∧ t.output = s.output ++ [.ok .none] ∧
      t.m3.processed.toNat = s.m3.processed.toNat + i.bytes.length - 2 ^ 32) ∧
  (∀ (m : M3Context) (p : Word) (bs : List Byte),
    (m3Write bs { m with processed := p }).mixState = (m3Write bs m).mixState ∧
    (m3Write bs { m with processed := p }).carry = (m3Write bs m).carry) ∧
  m3Write [0x33, 0x44, 0x55] { mixState := 0x12345678, processed := 0xfffffffe, carry := .two 0x11 0x22 } =
    { mixState := 0x008f4fe6, processed := 0x00000001, carry := .one 0x55 }

/-- R130, R132, R134: `M3.FINISH32` completes in every state, with the result that each pending length gives, and changes
nothing but the responses; its word, its result in the zero state and the rules' worked examples. -/
def Obligations.M3Finish32AnswersTheHash : Prop :=
  (∀ s : State, ∃ r : Word,
    exec .m3Finish32 s = .next { s with output := s.output ++ [.ok (.hash32 r)] } ∧
    (s.m3.carry = .zero → r = fmix (xor32 s.m3.mixState s.m3.processed)) ∧
    (∀ a0, s.m3.carry = .one a0 → r = fmix (xor32 (xor32 s.m3.mixState (kMix (zext32 a0))) s.m3.processed)) ∧
    (∀ a0 a1, s.m3.carry = .two a0 a1 →
      r = fmix (xor32 (xor32 s.m3.mixState (kMix (or32 (zext32 a0) (shl32 (zext32 a1) 8)))) s.m3.processed)) ∧
    (∀ a0 a1 a2, s.m3.carry = .three a0 a1 a2 →
      r = fmix (xor32 (xor32 s.m3.mixState
        (kMix (or32 (or32 (zext32 a0) (shl32 (zext32 a1) 8)) (shl32 (zext32 a2) 16)))) s.m3.processed))) ∧
  encode .m3Finish32 = 0x0800000000 ∧
  m3Finish32 { mixState := 0, processed := 0, carry := .zero } = 0 ∧
  xor32 0 (kMix 0x00654321) = 0x17a6636e ∧
  m3Finish32 { mixState := 0x145ee0d5, processed := 4, carry := .zero } = 0x76293b50

/-- R136, R135: `M3.FINISH` completes in every state with the u64 whose number is the u32 of `M3.FINISH32`; neither changes
anything but the responses, so the state before and after is identical in every element of the block; the word of
`M3.FINISH` and its result in the zero state. -/
def Obligations.M3FinishAnswersTheWidenedHash : Prop :=
  (∀ s : State, ∃ (r : Word) (d : DWord),
    exec .m3Finish32 s = .next { s with output := s.output ++ [.ok (.hash32 r)] } ∧
    exec .m3Finish s = .next { s with output := s.output ++ [.ok (.hash64 d)] } ∧
    d.toNat = r.toNat ∧ d.toNat < 2 ^ 32) ∧
  encode .m3Finish = 0x1000000000 ∧
  m3Finish { mixState := 0, processed := 0, carry := .zero } = 0

/-- R168: on the response port the two finish commands of a context give the same number, below `2^32`, in every
state. -/
def Obligations.FinishIsFinish32Widened : Prop :=
  (∀ s : State, ∃ r d : Response,
    exec .m3Finish32 s = .next (s.respond r) ∧ exec .m3Finish s = .next (s.respond d) ∧
    d.rdata = zext64 (r.rdata.extractLsb' 0 32) ∧ d.rdata.toNat < 2 ^ 32) ∧
  (∀ s : State, s.hasFnv = true → ∃ r d : Response,
    exec .fnvFinish32 s = .next (s.respond r) ∧ exec .fnvFinish s = .next (s.respond d) ∧
    d.rdata = zext64 (r.rdata.extractLsb' 0 32) ∧ d.rdata.toNat < 2 ^ 32)

/-- R137, R167: the hash of the empty stream is 0, and for FNV-1a the basis: after reset, or after an `INIT` in any
state, and then any number of empty writes. -/
def Obligations.EmptyStreamHashesAreFixed : Prop :=
  (∀ (hasFnv : Bool) (n : Nat),
    ∃ t, runProgram (List.replicate n .m3Write0 ++ [.m3Finish32]) (State.resetWith hasFnv) = .next t ∧
      t.output.getLast? = some (.ok (.hash32 0))) ∧
  (∀ (s : State) (n : Nat), s.wasReset = true →
    ∃ t, runProgram (.m3Init :: (List.replicate n .m3Write0 ++ [.m3Finish32])) s = .next t ∧
      t.output.getLast? = some (.ok (.hash32 0))) ∧
  (∀ n : Nat,
    ∃ t, runProgram (List.replicate n .fnvWrite0 ++ [.fnvFinish32]) (State.resetWith true) = .next t ∧
      t.output.getLast? = some (.ok (.hash32 0x811c9dc5))) ∧
  (∀ (s : State) (n : Nat), s.wasReset = true → s.hasFnv = true →
    ∃ t, runProgram (.fnvInit :: (List.replicate n .fnvWrite0 ++ [.fnvFinish32])) s = .next t ∧
      t.output.getLast? = some (.ok (.hash32 0x811c9dc5)))

/-! ### The FNV-1a commands -/

/-- R150: `FNV.INIT` completes in every state of an instance with the context and leaves the basis; nothing else changes
but the response; its word. -/
def Obligations.FnvInitConstructsTheBasis : Prop :=
  (∀ s : State, s.hasFnv = true →
    exec .fnvInit s = .next { s with fnvState := some 0x811c9dc5, output := s.output ++ [.ok .none] }) ∧
  encode .fnvInit = 0x3800000000

/-- R151, R156: one step is XOR into the low byte and then the product modulo `2^32`, and a write is one step a byte, in
stream order; the rule's corner cases and worked example. -/
def Obligations.FnvStepIsXorThenMultiply : Prop :=
  (∀ (v : Word) (b : Byte), (fnvStep v b).toNat = ((v.toNat ^^^ b.toNat) * 16777619) % 2 ^ 32) ∧
  (∀ v : Word, fnvWrite [] v = v) ∧
  (∀ (v : Word) (b : Byte) (bs : List Byte), fnvWrite (b :: bs) v = fnvWrite bs (fnvStep v b)) ∧
  fnvStep 0 0 = 0 ∧ fnvStep 0x811c9dc5 0 = 0x050c5d1f ∧ fnvStep 0xffffffff 0xff = 0xfffe6d00 ∧
  xor32 0x811c9dc5 (zext32 0x61) = 0x811c9da4 ∧ fnvStep 0x811c9dc5 0x61 = 0xe40c292c

/-- R152's rule and the sentence it marks as derived from R151: the five beats of `FNV.WRITE` complete in every state of an instance with the context; the bytes are taken in
lane order; nothing else changes but the responses; the number of a word; the rule's worked example. That a split of
the bytes does not matter ("any split of a byte sequence into beats gives the same `fnv_state`") is the derived
sentence. -/
def Obligations.FnvWriteStepsThroughItsBytes : Prop :=
  (∀ (s : State) (v : Word) (b0 b1 b2 b3 : Byte), s.fnvState = some v →
    let after := fun (v' : Word) => { s with fnvState := some v', output := s.output ++ [.ok .none] }
    exec .fnvWrite0 s = .next (after v) ∧
    exec (.fnvWrite1 b0) s = .next (after (fnvStep v b0)) ∧
    exec (.fnvWrite2 b0 b1) s = .next (after (fnvStep (fnvStep v b0) b1)) ∧
    exec (.fnvWrite3 b0 b1 b2) s = .next (after (fnvStep (fnvStep (fnvStep v b0) b1) b2)) ∧
    exec (.fnvWrite4 b0 b1 b2 b3) s = .next (after (fnvStep (fnvStep (fnvStep (fnvStep v b0) b1) b2) b3))) ∧
  (∀ (v : Word) (a b : List Byte), fnvWrite (a ++ b) v = fnvWrite b (fnvWrite a v)) ∧
  (∀ i : Instr, i.ctx = .fnv → i.fn = .write → (encode i).toNat = 2 ^ 37 + i.bytes.length * 2 ^ 32 +
      ((List.range i.bytes.length).map (fun j => (i.bytes.getD j 0).toNat * 2 ^ (8 * j))).sum) ∧
  encode (.fnvWrite4 0x66 0x6f 0x6f 0x62) = 0x24626f6f66 ∧
  fnvWrite [0x66, 0x6f, 0x6f, 0x62] 0x811c9dc5 = 0x3f5076ef

/-- R153, R154: the two finish commands of the FNV-1a context complete and answer its accumulator, as a u32 and as the
u64 of the same number; nothing else changes but the responses; their words. -/
def Obligations.FnvFinishAnswersTheAccumulator : Prop :=
  (∀ (s : State) (v : Word), s.fnvState = some v →
    exec .fnvFinish32 s = .next { s with output := s.output ++ [.ok (.hash32 v)] } ∧
    ∃ d : DWord, d.toNat = v.toNat ∧ exec .fnvFinish s = .next { s with output := s.output ++ [.ok (.hash64 d)] }) ∧
  encode .fnvFinish32 = 0x2800000000 ∧ encode .fnvFinish = 0x3000000000

/-- R84 (2), R72: without the FNV-1a context every word with `cmd[37] = 1` is answered `ILLEGAL`, and no context
changes. -/
def Obligations.WithoutFnvItsCommandsAreIllegal : Prop :=
  ∀ (s : State) (w : CmdWord) (rest : List HostEvent),
    s.wasReset = true → s.fnvState = none → s.input = .command w :: rest → w.getLsbD 37 = true →
    step s = .next { s with input := rest, output := s.output ++ [.illegal] }

/-! ### The laws of streams -/

/-- R164, and R113, which is its case of two chunks: feeding any list of chunks one after another leaves the context that their concatenation leaves, from any one
state, and so the same finish results; the same for FNV-1a. -/
def Obligations.StreamingEquivalence : Prop :=
  (∀ (m : M3Context) (ps : List (List Byte)),
    ps.foldl (fun m p => m3Write p m) m = m3Write ps.flatten m ∧
    m3Finish32 (ps.foldl (fun m p => m3Write p m) m) = m3Finish32 (m3Write ps.flatten m) ∧
    m3Finish (ps.foldl (fun m p => m3Write p m) m) = m3Finish (m3Write ps.flatten m)) ∧
  (∀ (v : Word) (ps : List (List Byte)), ps.foldl (fun v p => fnvWrite p v) v = fnvWrite ps.flatten v)

/-- R67: over the port, any program of `M3.WRITE` beats of any sizes leaves the context that one `M3Write` of all
their bytes leaves, and every beat is answered `OK`; the same for `FNV.WRITE`. -/
def Obligations.AnyCutIntoBeatsIsTheSame : Prop :=
  (∀ (s : State) (is : List Instr), s.wasReset = true → (∀ i ∈ is, i.ctx = .m3 ∧ i.fn = .write) →
    runProgram is s = .next { s with
      m3 := m3Write (is.flatMap Instr.bytes) s.m3,
      input := [],
      output := s.output ++ List.replicate is.length (.ok .none) }) ∧
  (∀ (s : State) (v : Word) (is : List Instr), s.wasReset = true → s.fnvState = some v →
    (∀ i ∈ is, i.ctx = .fnv ∧ i.fn = .write) →
    runProgram is s = .next { s with
      fnvState := some (fnvWrite (is.flatMap Instr.bytes) v),
      input := [],
      output := s.output ++ List.replicate is.length (.ok .none) })

/-- `M3.WRITEN` (R161) is full beats first and then one beat for the remainder, of the length R161 gives, and leaves what
one `M3Write` of the whole sequence leaves, which the spec marks as derived from R164; the rule's worked example. -/
def Obligations.WriteNIsOneWriteInBeats : Prop :=
  (∀ bs : List Byte,
    (m3WriteN bs).length = bs.length / 4 + (if bs.length % 4 > 0 then 1 else 0) ∧
    (∀ i, i < bs.length / 4 →
      ∃ b0 b1 b2 b3, (m3WriteN bs)[i]? = some (.m3Write4 b0 b1 b2 b3) ∧
        [b0, b1, b2, b3] = (bs.drop (4 * i)).take 4) ∧
    (bs.length % 4 > 0 → (m3WriteN bs).getLast? = writeOf .m3 (bs.drop (4 * (bs.length / 4)))) ∧
    (∀ s : State, s.wasReset = true → ∃ t, runProgram (m3WriteN bs) s = .next t ∧ t.m3 = m3Write bs s.m3 ∧
      t.fnvState = s.fnvState ∧ t.output = s.output ++ List.replicate (m3WriteN bs).length (.ok .none))) ∧
  (m3WriteN [0x61, 0x62, 0x63, 0x64, 0x65, 0x66, 0x67]).map encode = [0x0464636261, 0x0300676665]

/-- R162: `M3.HASH` from any state after reset answers the one-shot hash last, whatever stream the context held; the
rule's worked example. -/
def Obligations.M3HashAnswersTheOneShotHash : Prop :=
  (∀ (s : State) (bs : List Byte), s.wasReset = true →
    ∃ t, runProgram (m3Hash bs) s = .next t ∧ t.fnvState = s.fnvState ∧
      t.output = s.output ++ List.replicate ((m3WriteN bs).length + 1) (.ok .none) ++ [.ok (.hash32 (murmur3_32 bs))]) ∧
  (m3Hash [0x21, 0x43, 0x65, 0x87]).map encode = [0x1800000000, 0x0487654321, 0x0800000000] ∧
  murmur3_32 [0x21, 0x43, 0x65, 0x87] = 0xF55B516B

/-- R163: `FNV.WRITEN` cuts as `M3.WRITEN` does, into `FNV.WRITE`s, and `FNV.HASH` answers the one-shot hash last, in an
instance with the context; the rule's worked example. -/
def Obligations.FnvHashAnswersTheOneShotHash : Prop :=
  (∀ bs : List Byte, (fnvWriteN bs).map Instr.bytes = (m3WriteN bs).map Instr.bytes ∧
    ∀ i ∈ fnvWriteN bs, i.ctx = .fnv ∧ i.fn = .write) ∧
  (∀ (s : State) (bs : List Byte), s.wasReset = true → s.hasFnv = true →
    ∃ t, runProgram (fnvHash bs) s = .next t ∧ t.m3 = s.m3 ∧
      t.output = s.output ++ List.replicate ((fnvWriteN bs).length + 1) (.ok .none) ++ [.ok (.hash32 (fnv1a_32 bs))]) ∧
  (fnvHash [0x61]).map encode = [0x3800000000, 0x2100000061, 0x2800000000] ∧
  fnv1a_32 [0x61] = 0xE40C292C

/-- R165: a finish command given any number of times in a row answers the same every time, for all four finish
commands. -/
def Obligations.RepeatedFinishAnswersTheSame : Prop :=
  ∀ (s : State) (i : Instr), s.wasReset = true → i.wf s.hasFnv = true → i.fn = .finish32 ∨ i.fn = .finish →
    ∃ r : Result, ∀ n : Nat, runProgram (List.replicate n i) s =
      .next { s with input := [], output := s.output ++ List.replicate n (.ok r) }

/-- R166: taking every `FINISH32` and `FINISH` out of a program changes neither the contexts it leaves nor any
response of the commands that stay; and a stream continued behind a `FINISH32` ends in the hash of the whole. -/
def Obligations.FinishCommandsLeaveNoTrace : Prop :=
  (∀ (s : State) (is : List Instr), s.wasReset = true → s.output = [] →
    let keep := fun (i : Instr) => decide (i.fn = .write ∨ i.fn = .init)
    ∃ t t', runProgram is s = .next t ∧ runProgram (is.filter keep) s = .next t' ∧
      t.m3 = t'.m3 ∧ t.fnvState = t'.fnvState ∧
      (is.zip t.output).filter (fun p => keep p.1) = (is.filter keep).zip t'.output) ∧
  (∀ (hasFnv : Bool) (a b : List Byte),
    ∃ t, runProgram (m3WriteN a ++ .m3Finish32 :: (m3WriteN b ++ [.m3Finish32])) (State.resetWith hasFnv) = .next t ∧
      t.output.getLast? = some (.ok (.hash32 (murmur3_32 (a ++ b))))) ∧
  (∀ a b : List Byte,
    ∃ t, runProgram (fnvWriteN a ++ .fnvFinish32 :: (fnvWriteN b ++ [.fnvFinish32])) (State.resetWith true) = .next t ∧
      t.output.getLast? = some (.ok (.hash32 (fnv1a_32 (a ++ b)))))

/-- The meaning of the state (R28, and R155 for FNV-1a, which the spec marks as derived) is kept by every event the host
can send, in every state it holds in. -/
def Obligations.EveryStepKeepsTheStreamMeaning : Prop :=
  ∀ (s : State) (S F : List Byte) (e : HostEvent) (rest : List HostEvent),
    s.wasReset = true → s.input = e :: rest → s.Represents S F →
    ∃ t, step s = .next t ∧ t.Represents (streamAfter s.hasFnv .m3 S e) (streamAfter s.hasFnv .fnv F e)

/-- The meaning of the reset state: both streams are empty. -/
def Obligations.ResetStandsForEmptyStreams : Prop :=
  ∀ hasFnv : Bool, (State.resetWith hasFnv).Represents [] []

/-- In every reachable state the contexts stand for their logical streams (R28 and R155, which the spec marks as
derived), whatever commands, illegal words and resets the host has sent. -/
def Obligations.EveryReachableStateMeansItsStreams : Prop :=
  ∀ (hasFnv : Bool) (es : List HostEvent),
    ∃ t, runEvents es (State.resetWith hasFnv) = .next t ∧
      t.Represents (logicalStream hasFnv .m3 es) (logicalStream hasFnv .fnv es)

/-- After any events from reset on (commands, illegal words and resets), `M3.FINISH32` answers `Murmur3_32` of the bytes
written since the last `M3.INIT` or reset (R169), and `FNV.FINISH32` answers `Fnv1a_32` of its own stream, which is R155's
sentence, marked there as derived from R150 and R151; the words are R81's. -/
def Obligations.EveryFinishIsTheOneShotHash : Prop :=
  (∀ (hasFnv : Bool) (es : List HostEvent),
    ∃ t, runEvents (es ++ [.command 0x0800000000]) (State.resetWith hasFnv) = .next t ∧
      t.output.getLast? = some (.ok (.hash32 (murmur3_32 (logicalStream hasFnv .m3 es))))) ∧
  (∀ es : List HostEvent,
    ∃ t, runEvents (es ++ [.command 0x2800000000]) (State.resetWith true) = .next t ∧
      t.output.getLast? = some (.ok (.hash32 (fnv1a_32 (logicalStream true .fnv es)))))

/-! ### The machine: steps, reset, responses, independence -/

/-- R172: a step takes the host's next word; where it decodes, the step is `exec` of the instruction on the state with
the word taken; where it does not, the answer is `ILLEGAL` and no state element changes. -/
def Obligations.StepRunsTheDecodedCommand : Prop :=
  ∀ (s : State) (w : CmdWord) (rest : List HostEvent), s.wasReset = true → s.input = .command w :: rest →
    (∀ i, decode s.hasFnv w = .ok i → step s = exec i { s with input := rest }) ∧
    (∀ e, decode s.hasFnv w = .error e →
      step s = .next { s with input := rest, output := s.output ++ [.illegal] })

/-- R177: any number of illegal words gives that many `ILLEGAL` responses and nothing else. And one put anywhere between
other events leaves the contexts that the run without it leaves, and the same responses with one `ILLEGAL` at its place. -/
def Obligations.IllegalWordsLeaveNoTrace : Prop :=
  (∀ (s : State) (ws : List CmdWord), s.wasReset = true →
    (∀ w ∈ ws, ∃ e, decode s.hasFnv w = .error e) →
    runEvents (ws.map .command) s =
      .next { s with input := [], output := s.output ++ List.replicate ws.length .illegal }) ∧
  (∀ (s : State) (w : CmdWord) (e : DecodeError) (before later : List HostEvent), s.wasReset = true →
    decode s.hasFnv w = .error e →
    ∃ u t t' rs, runEvents before s = .next u ∧
      runEvents (before ++ .command w :: later) s = .next t ∧ runEvents (before ++ later) s = .next t' ∧
      t.m3 = t'.m3 ∧ t.fnvState = t'.fnvState ∧
      t.output = u.output ++ .illegal :: rs ∧ t'.output = u.output ++ rs)

/-- R80: every word, legal or not, is answered by exactly one response, in order, and the block is ready for the
next. -/
def Obligations.OneResponseForEachCommand : Prop :=
  ∀ (s : State) (ws : List CmdWord), s.wasReset = true →
    ∃ (t : State) (rs : List Response), runEvents (ws.map .command) s = .next t ∧
      rs.length = ws.length ∧ t.output = s.output ++ rs ∧ t.input = [] ∧ t.wasReset = true

/-- R170: after reset no run of any length faults or is refused, whatever the host sends. -/
def Obligations.EveryRunAfterResetIsSafe : Prop :=
  ∀ (s : State) (n : Nat), s.wasReset = true → SafeRun n s

/-- R190: what the reset input leaves of any state, before the first reset or after, and that `M3.INIT` followed by
`FNV.INIT` leaves the same contexts. -/
def Obligations.ResetConstructsEveryContext : Prop :=
  (∀ (s : State) (rest : List HostEvent), s.input = .reset :: rest →
    step s = .next { s with
      m3 := { mixState := 0, processed := 0, carry := .zero },
      fnvState := s.fnvState.map (fun _ => 0x811c9dc5),
      wasReset := true, input := rest }) ∧
  (∀ s : State, s.wasReset = true → s.hasFnv = true →
    ∃ t, runProgram [.m3Init, .fnvInit] s = .next t ∧
      t.m3 = { mixState := 0, processed := 0, carry := .zero } ∧ t.fnvState = some 0x811c9dc5)

/-- R38: the reset table, for an instance with and without the FNV-1a context, and its column for `INIT`; the finish
results of the reset state; before the first reset every command is refused (that the model represents the un-reset block
at all is its own choice, notes/assumptions/5.md). -/
def Obligations.ResetStateFollowsTheResetTable : Prop :=
  (∀ hasFnv : Bool,
    (State.resetWith hasFnv).m3.mixState = 0 ∧ (State.resetWith hasFnv).m3.processed = 0 ∧
    (State.resetWith hasFnv).m3.carry.len = 0) ∧
  (State.resetWith true).fnvState = some 0x811c9dc5 ∧ (State.resetWith false).fnvState = none ∧
  (∀ s : State, ∃ t, exec .m3Init s = .next t ∧
    t.m3.mixState = 0 ∧ t.m3.processed = 0 ∧ t.m3.carry.len = 0) ∧
  (∀ s : State, s.hasFnv = true → ∃ t, exec .fnvInit s = .next t ∧ t.fnvState = some 0x811c9dc5) ∧
  (∃ t, exec .m3Finish32 (State.resetWith true) = .next t ∧ t.output = [.ok (.hash32 0)]) ∧
  (∃ t, exec .fnvFinish32 (State.resetWith true) = .next t ∧ t.output = [.ok (.hash32 0x811c9dc5)]) ∧
  (∀ (s : State) (w : CmdWord) (rest : List HostEvent), s.wasReset = false → s.input = .command w :: rest →
    step s = .refused .beforeFirstReset)

/-- R192: a reset anywhere among the events discards both streams: what follows it leaves the contexts, and gives the
responses, that it would from the reset state. -/
def Obligations.ResetDiscardsBothStreams : Prop :=
  ∀ (s : State) (before later : List HostEvent), s.wasReset = true →
    ∃ t t' rs, runEvents (before ++ .reset :: later) s = .next t ∧
      runEvents later (State.resetWith s.hasFnv) = .next t' ∧
      t.m3 = t'.m3 ∧ t.fnvState = t'.fnvState ∧ t.output = s.output ++ rs ++ t'.output

/-- All state survives a wait (R181). That a step with nothing sent is a wait is the model's own reading
(notes/assumptions/3.md). -/
def Obligations.WaitingKeepsAllState : Prop :=
  ∀ (s : State) (n : Nat), s.input = [] → Host.Core.run Sys2Proof.core n s = .next s

/-- `carry_len = processed mod 4`, the invariant of R27, which the spec marks as derived, is kept by every step, from every
state it holds in. -/
def Obligations.EveryStepKeepsCountAndCarry : Prop :=
  ∀ s t : State, s.CountMatchesCarry → step s = .next t → t.CountMatchesCarry

/-- Every step keeps that all responses given have a zero upper half of `rdata` and one of the two
status codes (R78, R79, R171). -/
def Obligations.EveryStepKeepsResponsesWellFormed : Prop :=
  ∀ s t : State, s.ResponsesWellFormed → step s = .next t → t.ResponsesWellFormed

/-- The two invariants hold at reset. -/
def Obligations.InvariantsHoldAtReset : Prop :=
  ∀ hasFnv : Bool, (State.resetWith hasFnv).CountMatchesCarry ∧ (State.resetWith hasFnv).ResponsesWellFormed

/-- R35, the access table. Changes: every command completes in every state and answers once; a command of one context
leaves the other; the finish commands leave both; `mix_state` is written only when a block completes; a `WRITE` adds its
length to `processed`, and an `FNV.WRITE` of no byte leaves `fnv_state`; `INIT` and the reset write the initial values;
the host's events and the reset line are no command's. Observations: a command's effect and response depend on its own
context alone; a `WRITE` does not observe `processed`, its carry does not observe `mix_state`, and its response and that
of `INIT` observe nothing. Of an FNV command in an instance without the context, where R35 has no such command, the
completion and the single answer are the model's choice (notes/assumptions/8.md). -/
def Obligations.CommandsTouchOnlyWhatTheAccessTableLists : Prop :=
  (∀ (i : Instr) (s : State), ∃ (t : State) (r : Response), exec i s = .next t ∧
    t.output = s.output ++ [r] ∧ t.input = s.input ∧ t.wasReset = s.wasReset ∧ t.hasFnv = s.hasFnv ∧
    (i.ctx = .m3 → t.fnvState = s.fnvState) ∧
    (i.ctx = .fnv → t.m3 = s.m3) ∧
    (i.fn = .finish32 ∨ i.fn = .finish → t.m3 = s.m3 ∧ t.fnvState = s.fnvState) ∧
    (i.ctx = .m3 → i.fn = .write → t.m3.processed = add32 s.m3.processed (BitVec.ofNat 32 i.bytes.length)) ∧
    (i.ctx = .m3 → i.fn = .write → s.m3.carry.len + i.bytes.length < 4 → t.m3.mixState = s.m3.mixState) ∧
    (i.fn = .write → i.bytes = [] → t.fnvState = s.fnvState) ∧
    (i = .m3Init → t.m3.mixState = 0 ∧ t.m3.processed = 0 ∧ t.m3.carry.len = 0) ∧
    (∀ v, i = .fnvInit → s.fnvState = some v → t.fnvState = some 0x811c9dc5)) ∧
  (∀ (s : State) (rest : List HostEvent), s.input = .reset :: rest → ∃ t, step s = .next t ∧
    t.m3.mixState = 0 ∧ t.m3.processed = 0 ∧ t.m3.carry.len = 0 ∧ ∀ v, s.fnvState = some v → t.fnvState = some 0x811c9dc5) ∧
  (∀ (i : Instr) (s s' t t' : State), exec i s = .next t → exec i s' = .next t' →
    (i.ctx = .m3 → s.m3 = s'.m3 → t.m3 = t'.m3 ∧ t.output.getLast? = t'.output.getLast?) ∧
    (i.ctx = .fnv → s.fnvState = s'.fnvState →
      t.fnvState = t'.fnvState ∧ t.output.getLast? = t'.output.getLast?) ∧
    (i.ctx = .m3 → i.fn = .write → s.m3.mixState = s'.m3.mixState → s.m3.carry = s'.m3.carry →
      t.m3.mixState = t'.m3.mixState) ∧
    (i.ctx = .m3 → i.fn = .write → s.m3.carry = s'.m3.carry → t.m3.carry = t'.m3.carry) ∧
    (i.ctx = .m3 → i.fn = .write ∨ i.fn = .init → t.output.getLast? = t'.output.getLast?) ∧
    (i.ctx = .fnv → i.fn = .write ∨ i.fn = .init → s.hasFnv = s'.hasFnv → t.output.getLast? = t'.output.getLast?))

/-- The idempotency of R59, which the spec marks as derived: a `M3.WRITE` of at least one byte changes the context in every
state, and issued twice it appends its bytes twice; a second `INIT` of a context changes nothing more. That the sentence
on `WRITE` is read of `M3.WRITE` alone is notes/assumptions/18.md; that `FNV.INIT` completes in an instance without the
context too is the model's choice, notes/assumptions/8.md. -/
def Obligations.WritesChangeAndInitsAreIdempotent : Prop :=
  (∀ (i : Instr) (s : State), i.ctx = .m3 → i.fn = .write → i.bytes ≠ [] →
    ∃ t u, exec i s = .next t ∧ exec i t = .next u ∧
      t.m3.processed ≠ s.m3.processed ∧ u.m3 = m3Write (i.bytes ++ i.bytes) s.m3) ∧
  (∀ (i : Instr) (s : State), i.fn = .init →
    ∃ t u, exec i s = .next t ∧ exec i t = .next u ∧ u.m3 = t.m3 ∧ u.fnvState = t.fnvState)

/-! ### Encoding -/

/-- The three laws of R89, which the spec marks as derived: decoding an encoded command gives it back, for every command the instance has and every operand; encoding a
decoded word gives it back; no two legal words mean the same command. -/
def Obligations.DecodeAndEncodeAreInverse : Prop :=
  ∀ hasFnv : Bool,
    (∀ i : Instr, i.wf hasFnv = true → decode hasFnv (encode i) = .ok i) ∧
    (∀ (w : CmdWord) (i : Instr), decode hasFnv w = .ok i → i.wf hasFnv = true ∧ encode i = w) ∧
    (∀ (w w' : CmdWord) (i : Instr), decode hasFnv w = .ok i → decode hasFnv w' = .ok i → w = w')

/-- R82: the number of a legal word, and the rule's examples. -/
def Obligations.WordIsTheSumOfItsFields : Prop :=
  (∀ i : Instr, (encode i).toNat =
    (match i.ctx with | .m3 => 0 | .fnv => 1) * 2 ^ 37 +
    (match i.fn with | .write => 0 | .finish32 => 1 | .finish => 2 | .init => 3) * 2 ^ 35 +
    i.bytes.length * 2 ^ 32 +
    (i.bytes.getD 0 0).toNat + (i.bytes.getD 1 0).toNat * 2 ^ 8 + (i.bytes.getD 2 0).toNat * 2 ^ 16 +
    (i.bytes.getD 3 0).toNat * 2 ^ 24) ∧
  encode (.m3Write3 0x21 0x43 0x65) = 0x0300654321 ∧ encode .m3Finish32 = 0x0800000000 ∧
  encode (.fnvWrite1 0x61) = 0x2100000061

/-- R84, the five conditions over the number of the word: a word is illegal if and only if one of them holds, and then it
is answered `ILLEGAL` and changes no state. -/
def Obligations.IllegalWordsAreTheFiveConditions : Prop :=
  ∀ (hasFnv : Bool) (w : CmdWord),
    let rsv := w.toNat / 2 ^ 38
    let ctx := w.toNat / 2 ^ 37 % 2
    let fn := w.toNat / 2 ^ 35 % 4
    let len := w.toNat / 2 ^ 32 % 8
    let data := w.toNat % 2 ^ 32
    ((∃ e, decode hasFnv w = .error e) ↔
      (rsv ≠ 0 ∨ (ctx = 1 ∧ hasFnv = false) ∨ (fn ≠ 0 ∧ (len ≠ 0 ∨ data ≠ 0)) ∨ (fn = 0 ∧ 5 ≤ len) ∨
        (fn = 0 ∧ len ≤ 3 ∧ ∃ i, len ≤ i ∧ i ≤ 3 ∧ data / 2 ^ (8 * i) % 256 ≠ 0))) ∧
    (∀ (s : State) (rest : List HostEvent) (e : DecodeError), s.wasReset = true → s.hasFnv = hasFnv →
      s.input = .command w :: rest → decode hasFnv w = .error e →
      step s = .next { s with input := rest, output := s.output ++ [.illegal] })

/-- The table of R81: a word is a row's command on its own lanes if and only if it has the row's match under the row's
mask; a word decodes at all if and only if it matches one of the sixteen rows, and without FNV-1a one of the first eight,
and then means the same. -/
def Obligations.OpcodeRowsAreTheLegalWords : Prop :=
  ∀ (w : CmdWord),
    let is := fun (i : Instr) => decode true w = .ok i
    let l := fun (i : Nat) => cmdLane w i
    (is .m3Write0 ↔ w &&& 0xFFFFFFFFFF = 0x0000000000) ∧
    (is (.m3Write1 (l 0)) ↔ w &&& 0xFFFFFFFF00 = 0x0100000000) ∧
    (is (.m3Write2 (l 0) (l 1)) ↔ w &&& 0xFFFFFF0000 = 0x0200000000) ∧
    (is (.m3Write3 (l 0) (l 1) (l 2)) ↔ w &&& 0xFFFF000000 = 0x0300000000) ∧
    (is (.m3Write4 (l 0) (l 1) (l 2) (l 3)) ↔ w &&& 0xFF00000000 = 0x0400000000) ∧
    (is .m3Finish32 ↔ w &&& 0xFFFFFFFFFF = 0x0800000000) ∧
    (is .m3Finish ↔ w &&& 0xFFFFFFFFFF = 0x1000000000) ∧
    (is .m3Init ↔ w &&& 0xFFFFFFFFFF = 0x1800000000) ∧
    (is .fnvWrite0 ↔ w &&& 0xFFFFFFFFFF = 0x2000000000) ∧
    (is (.fnvWrite1 (l 0)) ↔ w &&& 0xFFFFFFFF00 = 0x2100000000) ∧
    (is (.fnvWrite2 (l 0) (l 1)) ↔ w &&& 0xFFFFFF0000 = 0x2200000000) ∧
    (is (.fnvWrite3 (l 0) (l 1) (l 2)) ↔ w &&& 0xFFFF000000 = 0x2300000000) ∧
    (is (.fnvWrite4 (l 0) (l 1) (l 2) (l 3)) ↔ w &&& 0xFF00000000 = 0x2400000000) ∧
    (is .fnvFinish32 ↔ w &&& 0xFFFFFFFFFF = 0x2800000000) ∧
    (is .fnvFinish ↔ w &&& 0xFFFFFFFFFF = 0x3000000000) ∧
    (is .fnvInit ↔ w &&& 0xFFFFFFFFFF = 0x3800000000) ∧
    let m3Rows : List (CmdWord × CmdWord) :=
      [(0x0000000000, 0xFFFFFFFFFF), (0x0100000000, 0xFFFFFFFF00), (0x0200000000, 0xFFFFFF0000),
       (0x0300000000, 0xFFFF000000), (0x0400000000, 0xFF00000000), (0x0800000000, 0xFFFFFFFFFF),
       (0x1000000000, 0xFFFFFFFFFF), (0x1800000000, 0xFFFFFFFFFF)]
    let fnvRows : List (CmdWord × CmdWord) :=
      [(0x2000000000, 0xFFFFFFFFFF), (0x2100000000, 0xFFFFFFFF00), (0x2200000000, 0xFFFFFF0000),
       (0x2300000000, 0xFFFF000000), (0x2400000000, 0xFF00000000), (0x2800000000, 0xFFFFFFFFFF),
       (0x3000000000, 0xFFFFFFFFFF), (0x3800000000, 0xFFFFFFFFFF)]
    ((∃ i, decode true w = .ok i) ↔ ∃ row ∈ m3Rows ++ fnvRows, w &&& row.2 = row.1) ∧
    ((∃ i, decode false w = .ok i) ↔ ∃ row ∈ m3Rows, w &&& row.2 = row.1) ∧
    (∀ i, decode false w = .ok i ↔ (decode true w = .ok i ∧ i.ctx = .m3))

/-- R75: the bytes of a `WRITE` are the lanes `0..len-1` of its word, lane 0 first. -/
def Obligations.WriteBytesAreTheLanesInOrder : Prop :=
  ∀ (hasFnv : Bool) (w : CmdWord) (i : Instr), decode hasFnv w = .ok i → i.fn = .write →
    w.toNat / 2 ^ 32 % 8 ≤ 4 ∧
    i.bytes = (List.range (w.toNat / 2 ^ 32 % 8)).map (fun j => BitVec.ofNat 8 (w.toNat / 2 ^ (8 * j) % 256))

/-- Words of 95_test_vectors.md section 2.8, one for each row, and some that are illegal. -/
def Obligations.WrittenOutWordsDecode : Prop :=
  decode false 0x0000000000 = .ok .m3Write0 ∧
  decode false 0x01000000ff = .ok (.m3Write1 0xff) ∧
  decode false 0x020000b1b0 = .ok (.m3Write2 0xb0 0xb1) ∧
  decode false 0x0300ffffff = .ok (.m3Write3 0xff 0xff 0xff) ∧
  decode false 0x0487654321 = .ok (.m3Write4 0x21 0x43 0x65 0x87) ∧
  decode false 0x1800000000 = .ok .m3Init ∧
  decode true 0x2100000061 = .ok (.fnvWrite1 0x61) ∧
  decode true 0x24626f6f66 = .ok (.fnvWrite4 0x66 0x6f 0x6f 0x62) ∧
  decode true 0x3000000000 = .ok .fnvFinish ∧
  decode true 0x8000000000 = .error .reservedBits ∧
  decode false 0x2100000061 = .error .absentExtension ∧
  decode true 0x1c00000000 = .error .operandsOfZ ∧
  decode true 0x0500000000 = .error .reservedLength ∧
  decode true 0x03ff000000 = .error .unusedLanes

/-- R78, R79: the response word by its two fields, and the response of every command of the table and of every word that
spells none. -/
def Obligations.ResponseWordsFollowTheirTable : Prop :=
  (∀ r : Response, r.word.toNat = r.status.toNat * 2 ^ 64 + r.rdata.toNat ∧ r.status.toNat ≤ 1) ∧
  (∀ (s : State) (w : CmdWord) (rest : List HostEvent) (e : DecodeError), s.wasReset = true →
    s.input = .command w :: rest → decode s.hasFnv w = .error e →
    ∃ (t : State) (r : Response), step s = .next t ∧ t.output = s.output ++ [r] ∧
      r.status = 1 ∧ r.rdata = 0 ∧ r.word = 0x10000000000000000) ∧
  (∀ (i : Instr) (s : State), i.wf s.hasFnv = true → ∃ (t : State) (r : Response),
    exec i s = .next t ∧ t.output = s.output ++ [r] ∧ r.word.toNat / 2 ^ 32 = 0 ∧
    (i.fn = .init ∨ i.fn = .write → r.word = 0) ∧
    (i.ctx = .m3 → i.fn = .finish32 ∨ i.fn = .finish → r.word.toNat = (m3Finish32 s.m3).toNat) ∧
    (∀ v, s.fnvState = some v → i.ctx = .fnv → i.fn = .finish32 ∨ i.fn = .finish → r.word.toNat = v.toNat))
end

