-- ==== Sys2Proof/Laws/Decode.lean ====
section
/-! SUPPORT. The fields of a command word as numbers, and the fields of a word that the encoder builds. -/

namespace Sys2Proof

theorem cmdRsv_toNat (w : CmdWord) : (cmdRsv w).toNat = w.toNat / 2 ^ 38 := by
  simp only [cmdRsv, BitVec.extractLsb'_toNat, Nat.shiftRight_eq_div_pow]
  omega

theorem cmdCtx_toNat (w : CmdWord) : (cmdCtx w).toNat = w.toNat / 2 ^ 37 % 2 := by
  simp [cmdCtx, BitVec.extractLsb'_toNat, Nat.shiftRight_eq_div_pow]

theorem cmdFn_toNat (w : CmdWord) : (cmdFn w).toNat = w.toNat / 2 ^ 35 % 4 := by
  simp [cmdFn, BitVec.extractLsb'_toNat, Nat.shiftRight_eq_div_pow]

theorem cmdLen_toNat (w : CmdWord) : (cmdLen w).toNat = w.toNat / 2 ^ 32 % 8 := by
  simp [cmdLen, BitVec.extractLsb'_toNat, Nat.shiftRight_eq_div_pow]

theorem cmdData_toNat (w : CmdWord) : (cmdData w).toNat = w.toNat % 2 ^ 32 := by
  simp [cmdData, BitVec.extractLsb'_toNat]

theorem cmdLane_toNat (w : CmdWord) (i : Nat) : (cmdLane w i).toNat = w.toNat / 2 ^ (8 * i) % 256 := by
  simp [cmdLane, BitVec.extractLsb'_toNat, Nat.shiftRight_eq_div_pow]

/-- Concatenation as a sum, R11. -/
theorem toNat_append_eq_add {m n : Nat} (x : BitVec m) (y : BitVec n) :
    (x ++ y).toNat = x.toNat * 2 ^ n + y.toNat := by
  rw [BitVec.toNat_append, ← Nat.shiftLeft_add_eq_or_of_lt y.isLt, Nat.shiftLeft_eq]

theorem commandWord_toNat (c : Ctx) (fn : Fn) (len : BitVec 3) (l3 l2 l1 l0 : Byte) :
    (commandWord c fn len l3 l2 l1 l0).toNat =
      (ctxBit c).toNat * 2 ^ 37 + (fnCode fn).toNat * 2 ^ 35 + len.toNat * 2 ^ 32 +
      l3.toNat * 2 ^ 24 + l2.toNat * 2 ^ 16 + l1.toNat * 2 ^ 8 + l0.toNat := by
  simp only [commandWord, toNat_append_eq_add]
  simp
  omega

section
variable (c : Ctx) (fn : Fn) (len : BitVec 3) (l3 l2 l1 l0 : Byte)

theorem cmdRsv_commandWord : cmdRsv (commandWord c fn len l3 l2 l1 l0) = 0 := by
  apply BitVec.eq_of_toNat_eq
  rw [cmdRsv_toNat, commandWord_toNat]
  have := (ctxBit c).isLt; have := (fnCode fn).isLt; have := len.isLt
  have := l3.isLt; have := l2.isLt; have := l1.isLt; have := l0.isLt
  simp only [BitVec.ofNat_eq_ofNat, BitVec.toNat_ofNat]
  omega

theorem cmdCtx_commandWord : cmdCtx (commandWord c fn len l3 l2 l1 l0) = ctxBit c := by
  apply BitVec.eq_of_toNat_eq
  rw [cmdCtx_toNat, commandWord_toNat]
  have := (ctxBit c).isLt; have := (fnCode fn).isLt; have := len.isLt
  have := l3.isLt; have := l2.isLt; have := l1.isLt; have := l0.isLt
  omega

theorem cmdFn_commandWord : cmdFn (commandWord c fn len l3 l2 l1 l0) = fnCode fn := by
  apply BitVec.eq_of_toNat_eq
  rw [cmdFn_toNat, commandWord_toNat]
  have := (ctxBit c).isLt; have := (fnCode fn).isLt; have := len.isLt
  have := l3.isLt; have := l2.isLt; have := l1.isLt; have := l0.isLt
  omega

theorem cmdLen_commandWord : cmdLen (commandWord c fn len l3 l2 l1 l0) = len := by
  apply BitVec.eq_of_toNat_eq
  rw [cmdLen_toNat, commandWord_toNat]
  have := (ctxBit c).isLt; have := (fnCode fn).isLt; have := len.isLt
  have := l3.isLt; have := l2.isLt; have := l1.isLt; have := l0.isLt
  omega

theorem cmdData_commandWord_toNat : (cmdData (commandWord c fn len l3 l2 l1 l0)).toNat =
    l3.toNat * 2 ^ 24 + l2.toNat * 2 ^ 16 + l1.toNat * 2 ^ 8 + l0.toNat := by
  rw [cmdData_toNat, commandWord_toNat]
  have := l3.isLt; have := l2.isLt; have := l1.isLt; have := l0.isLt
  omega

theorem cmdLane_commandWord_toNat (i : Nat) :
    (cmdLane (commandWord c fn len l3 l2 l1 l0) i).toNat =
      ((ctxBit c).toNat * 2 ^ 37 + (fnCode fn).toNat * 2 ^ 35 + len.toNat * 2 ^ 32 +
      l3.toNat * 2 ^ 24 + l2.toNat * 2 ^ 16 + l1.toNat * 2 ^ 8 + l0.toNat) / 2 ^ (8 * i) % 256 := by
  rw [cmdLane_toNat, commandWord_toNat]

theorem cmdLane0_commandWord : cmdLane (commandWord c fn len l3 l2 l1 l0) 0 = l0 := by
  apply BitVec.eq_of_toNat_eq
  rw [cmdLane_commandWord_toNat]
  have := l0.isLt
  omega

theorem cmdLane1_commandWord : cmdLane (commandWord c fn len l3 l2 l1 l0) 1 = l1 := by
  apply BitVec.eq_of_toNat_eq
  rw [cmdLane_commandWord_toNat]
  have := l1.isLt; have := l0.isLt
  omega

theorem cmdLane2_commandWord : cmdLane (commandWord c fn len l3 l2 l1 l0) 2 = l2 := by
  apply BitVec.eq_of_toNat_eq
  rw [cmdLane_commandWord_toNat]
  have := l2.isLt; have := l1.isLt; have := l0.isLt
  omega

theorem cmdLane3_commandWord : cmdLane (commandWord c fn len l3 l2 l1 l0) 3 = l3 := by
  apply BitVec.eq_of_toNat_eq
  rw [cmdLane_commandWord_toNat]
  have := l3.isLt; have := l2.isLt; have := l1.isLt; have := l0.isLt
  omega

end

@[simp] theorem ctxOfBit_ctxBit (c : Ctx) : ctxOfBit (ctxBit c) = c := by
  cases c <;> decide

@[simp] theorem ctxBit_ctxOfBit (b : BitVec 1) : ctxBit (ctxOfBit b) = b := by
  revert b; decide

end Sys2Proof
end

