-- ==== Sys2Proof/Laws/State.lean ====
section
/-! SUPPORT. One lemma for each field of `State` under each update of it. -/

namespace Sys2Proof.Machine

section
variable (s : State) (m : M3Context) (v : Word) (r : Response) (w : CmdWord) (es : List HostEvent)

@[simp] theorem respond_m3 : (s.respond r).m3 = s.m3 := rfl
@[simp] theorem respond_fnvState : (s.respond r).fnvState = s.fnvState := rfl
@[simp] theorem respond_wasReset : (s.respond r).wasReset = s.wasReset := rfl
@[simp] theorem respond_input : (s.respond r).input = s.input := rfl
@[simp] theorem respond_output : (s.respond r).output = s.output ++ [r] := rfl
@[simp] theorem respond_hasFnv : (s.respond r).hasFnv = s.hasFnv := rfl

@[simp] theorem setM3_m3 : (s.setM3 m).m3 = m := rfl
@[simp] theorem setM3_fnvState : (s.setM3 m).fnvState = s.fnvState := rfl
@[simp] theorem setM3_wasReset : (s.setM3 m).wasReset = s.wasReset := rfl
@[simp] theorem setM3_input : (s.setM3 m).input = s.input := rfl
@[simp] theorem setM3_output : (s.setM3 m).output = s.output := rfl
@[simp] theorem setM3_hasFnv : (s.setM3 m).hasFnv = s.hasFnv := rfl

@[simp] theorem setFnv_m3 : (s.setFnv v).m3 = s.m3 := rfl
@[simp] theorem setFnv_fnvState : (s.setFnv v).fnvState = some v := rfl
@[simp] theorem setFnv_wasReset : (s.setFnv v).wasReset = s.wasReset := rfl
@[simp] theorem setFnv_input : (s.setFnv v).input = s.input := rfl
@[simp] theorem setFnv_output : (s.setFnv v).output = s.output := rfl
@[simp] theorem setFnv_hasFnv : (s.setFnv v).hasFnv = true := rfl

@[simp] theorem pulseReset_m3 : s.pulseReset.m3 = m3Zero := rfl
@[simp] theorem pulseReset_fnvState : s.pulseReset.fnvState = s.fnvState.map (fun _ => fnvBasis) := rfl
@[simp] theorem pulseReset_wasReset : s.pulseReset.wasReset = true := rfl
@[simp] theorem pulseReset_input : s.pulseReset.input = s.input := rfl
@[simp] theorem pulseReset_output : s.pulseReset.output = s.output := rfl
@[simp] theorem pulseReset_hasFnv : s.pulseReset.hasFnv = s.hasFnv := by
  simp [State.hasFnv]

@[simp] theorem load_m3 : (s.load es).m3 = s.m3 := rfl
@[simp] theorem load_fnvState : (s.load es).fnvState = s.fnvState := rfl
@[simp] theorem load_wasReset : (s.load es).wasReset = s.wasReset := rfl
@[simp] theorem load_input : (s.load es).input = es := rfl
@[simp] theorem load_output : (s.load es).output = s.output := rfl
@[simp] theorem load_hasFnv : (s.load es).hasFnv = s.hasFnv := rfl

@[simp] theorem sendFirst_m3 : (s.sendFirst w).m3 = s.m3 := rfl
@[simp] theorem sendFirst_fnvState : (s.sendFirst w).fnvState = s.fnvState := rfl
@[simp] theorem sendFirst_wasReset : (s.sendFirst w).wasReset = s.wasReset := rfl
@[simp] theorem sendFirst_input : (s.sendFirst w).input = .command w :: s.input := rfl
@[simp] theorem sendFirst_output : (s.sendFirst w).output = s.output := rfl
@[simp] theorem sendFirst_hasFnv : (s.sendFirst w).hasFnv = s.hasFnv := rfl

@[simp] theorem wait_eq : s.wait = s := rfl

end

section
variable (b : Bool)

@[simp] theorem resetWith_m3 : (State.resetWith b).m3 = m3Zero := rfl
@[simp] theorem resetWith_wasReset : (State.resetWith b).wasReset = true := rfl
@[simp] theorem resetWith_input : (State.resetWith b).input = [] := rfl
@[simp] theorem resetWith_output : (State.resetWith b).output = [] := rfl
@[simp] theorem resetWith_hasFnv : (State.resetWith b).hasFnv = b := by
  cases b <;> rfl

end

end Sys2Proof.Machine
end

