-- ==== Sys2Proof/Laws/Ops.lean ====
section
/-! SUPPORT. What each shared operation of Machine/Ops.lean can do, said once. -/

namespace Sys2Proof.Machine

theorem accept_of_nil {s : State} (h : s.input = []) : s.accept = none := by
  simp [State.accept, h]

theorem accept_of_cons {s : State} {e : HostEvent} {rest : List HostEvent} (h : s.input = e :: rest) :
    s.accept = some (e, { s with input := rest }) := by
  simp [State.accept, h]

/-- A command on the MurmurHash3 context always goes on. -/
theorem onM3_eq (s : State) (f : M3Context → M3Context × Result) :
    onM3 s f = .next { s with m3 := (f s.m3).1, output := s.output ++ [.ok (f s.m3).2] } := rfl

theorem answerIllegal_eq (s : State) :
    answerIllegal s = .next { s with output := s.output ++ [.illegal] } := rfl

/-- A command on the FNV-1a context of an instance that has it. -/
theorem onFnv_of_some {s : State} {v : Word} (h : s.fnvState = some v) (f : Word → Word × Result) :
    onFnv s f = .next { s with fnvState := some (f v).1, output := s.output ++ [.ok (f v).2] } := by
  simp [onFnv, h, State.respond, State.setFnv]

/-- A command on the FNV-1a context of an instance that does not have it. -/
theorem onFnv_of_none {s : State} (h : s.fnvState = none) (f : Word → Word × Result) :
    onFnv s f = .next { s with output := s.output ++ [.illegal] } := by
  simp [onFnv, h, answerIllegal_eq]

theorem hasFnv_eq_true {s : State} : s.hasFnv = true ↔ ∃ v, s.fnvState = some v := by
  simp [State.hasFnv, Option.isSome_iff_exists]

theorem hasFnv_eq_false {s : State} : s.hasFnv = false ↔ s.fnvState = none := by
  simp [State.hasFnv]

end Sys2Proof.Machine
end

