-- ==== Sys2Proof/Laws/Exec.lean ====
section
/-! SUPPORT. What a command can do, said once for all commands: its effect on its own context and its result. -/

namespace Sys2Proof.Machine

/-- The effect of a command on the MurmurHash3 context, by its function. -/
def m3Effect (i : Instr) (m : M3Context) : M3Context × Result :=
  match i.fn with
  | .write => (m3Write i.bytes m, .none)
  | .finish32 => (m, .hash32 (m3Finish32 m))
  | .finish => (m, .hash64 (m3Finish m))
  | .init => (m3Zero, .none)

/-- The effect of a command on the FNV-1a accumulator, by its function. -/
def fnvEffect (i : Instr) (v : Word) : Word × Result :=
  match i.fn with
  | .write => (fnvWrite i.bytes v, .none)
  | .finish32 => (v, .hash32 v)
  | .finish => (v, .hash64 (zext64 v))
  | .init => (fnvBasis, .none)

theorem exec_of_m3 {i : Instr} (h : i.ctx = .m3) (s : State) : exec i s = onM3 s (m3Effect i) := by
  cases i <;> first | rfl | cases h

theorem exec_of_fnv {i : Instr} (h : i.ctx = .fnv) (s : State) : exec i s = onFnv s (fnvEffect i) := by
  cases i <;> first | rfl | cases h

end Sys2Proof.Machine
end

