-- ==== Sys2Proof/Laws/M3Write.lean ====
section
/-! SUPPORT. The carry reassembly: taking bytes with some pending is taking the pending bytes and them together. -/

namespace Sys2Proof.Machine

@[simp] theorem carry_length_bytes (c : Carry) : c.bytes.length = c.len := by
  cases c <;> rfl

theorem carry_len_le (c : Carry) : c.len ≤ 3 := by
  cases c <;> simp [Carry.len]

@[simp] theorem remainderOf_bytes (c : Carry) : remainderOf c.bytes = c := by
  cases c <;> rfl

@[simp] theorem blocksOf_bytes (c : Carry) : blocksOf c.bytes = [] := by
  cases c <;> rfl

@[simp] theorem blocksOf_block (b0 b1 b2 b3 : Byte) (rest : List Byte) :
    blocksOf (b0 :: b1 :: b2 :: b3 :: rest) = (b0, b1, b2, b3) :: blocksOf rest := by
  rw [blocksOf]

@[simp] theorem remainderOf_block (b0 b1 b2 b3 : Byte) (rest : List Byte) :
    remainderOf (b0 :: b1 :: b2 :: b3 :: rest) = remainderOf rest := by
  rw [remainderOf]

/-- A byte sequence is one of these: at most three bytes, or a block and a rest. An induction over blocks. -/
theorem blocks_induction {P : List Byte → Prop} (carry : ∀ c : Carry, P c.bytes)
    (block : ∀ b0 b1 b2 b3 rest, P rest → P (b0 :: b1 :: b2 :: b3 :: rest)) : ∀ bs, P bs
  | [] => carry .zero
  | [b0] => carry (.one b0)
  | [b0, b1] => carry (.two b0 b1)
  | [b0, b1, b2] => carry (.three b0 b1 b2)
  | b0 :: b1 :: b2 :: b3 :: rest => block b0 b1 b2 b3 rest (blocks_induction carry block rest)

theorem remainderOf_bytes_eq_drop (bs : List Byte) : (remainderOf bs).bytes = bs.drop (4 * (bs.length / 4)) := by
  induction bs using blocks_induction with
  | carry c => cases c <;> simp [Carry.bytes, remainderOf]
  | block b0 b1 b2 b3 rest ih =>
    have hlen : 4 * ((b0 :: b1 :: b2 :: b3 :: rest).length / 4) = 4 * (rest.length / 4) + 4 := by
      simp only [List.length_cons]; omega
    rw [hlen, remainderOf_block, ih]
    rfl

theorem remainderOf_len (bs : List Byte) : (remainderOf bs).len = bs.length % 4 := by
  rw [← carry_length_bytes, remainderOf_bytes_eq_drop, List.length_drop]
  omega

theorem length_blocksOf (bs : List Byte) : (blocksOf bs).length = bs.length / 4 := by
  induction bs using blocks_induction with
  | carry c => cases c <;> simp [Carry.bytes, blocksOf]
  | block b0 b1 b2 b3 rest ih =>
    simp only [blocksOf_block, List.length_cons, ih]
    omega

theorem mixAndBuffer_carry (h : Word) (c : Carry) : mixAndBuffer h c.bytes = (h, c) := by
  simp [mixAndBuffer]

theorem mixAndBuffer_block (h : Word) (b0 b1 b2 b3 : Byte) (rest : List Byte) :
    mixAndBuffer h (b0 :: b1 :: b2 :: b3 :: rest) = mixAndBuffer (blockMix h (le32 b0 b1 b2 b3)) rest := by
  simp [mixAndBuffer, blockValue]

theorem mixAndBuffer_len (h : Word) (bs : List Byte) : (mixAndBuffer h bs).2.len = bs.length % 4 :=
  remainderOf_len bs

/-- The three cases of R104 are one: the pending bytes and the new ones, taken from the front. -/
theorem absorb_eq_mixAndBuffer (h : Word) (c : Carry) (bs : List Byte) :
    absorb h c bs = mixAndBuffer h (c.bytes ++ bs) := by
  cases c with
  | zero => rfl
  | one a0 =>
    match bs with
    | [] => rfl
    | [_] => rfl
    | [_, _] => rfl
    | _ :: _ :: _ :: _ => simp [absorb, Carry.complete, Carry.bytes, mixAndBuffer_block]
  | two a0 a1 =>
    match bs with
    | [] => rfl
    | [_] => rfl
    | _ :: _ :: _ => simp [absorb, Carry.complete, Carry.bytes, mixAndBuffer_block]
  | three a0 a1 a2 =>
    match bs with
    | [] => rfl
    | _ :: _ => simp [absorb, Carry.complete, Carry.bytes, mixAndBuffer_block]

/-- Taking `xs` and then `ys` behind what is left of them is taking `xs ++ ys`. -/
theorem mixAndBuffer_append (h : Word) (xs ys : List Byte) :
    mixAndBuffer h (xs ++ ys) = mixAndBuffer (mixAndBuffer h xs).1 ((mixAndBuffer h xs).2.bytes ++ ys) := by
  induction xs using blocks_induction generalizing h with
  | carry c => simp [mixAndBuffer_carry]
  | block b0 b1 b2 b3 rest ih => simp only [List.cons_append, mixAndBuffer_block, ih]

end Sys2Proof.Machine
end

