-- ==== Sys2Proof/Laws/PerInstr.lean ====
section
/-! SUPPORT. The family `EncodedFields`: what stands in each field of a command's word (30_encoding.md R71, R73, R76). -/

namespace Sys2Proof.Laws.EncodedFields

/-- The fields of the command's word are the command's own, and the lanes its bytes, an absent byte 0. -/
def Statement (i : Instr) : Prop :=
  cmdRsv (encode i) = 0 ∧ cmdCtx (encode i) = ctxBit i.ctx ∧ cmdFn (encode i) = fnCode i.fn ∧
  (cmdLen (encode i)).toNat = i.bytes.length ∧
  cmdLane (encode i) 0 = i.bytes.getD 0 0 ∧ cmdLane (encode i) 1 = i.bytes.getD 1 0 ∧
  cmdLane (encode i) 2 = i.bytes.getD 2 0 ∧ cmdLane (encode i) 3 = i.bytes.getD 3 0

/-- The family for any command with at most four bytes. -/
theorem of_length_le (i : Instr) (h : i.bytes.length ≤ 4) : Statement i := by
  refine ⟨cmdRsv_commandWord .., cmdCtx_commandWord .., cmdFn_commandWord .., ?_, cmdLane0_commandWord ..,
    cmdLane1_commandWord .., cmdLane2_commandWord .., cmdLane3_commandWord ..⟩
  rw [encode, cmdLen_commandWord, BitVec.toNat_ofNat]
  omega

theorem m3Write0 : Statement .m3Write0 := of_length_le _ (by simp [Instr.bytes])
theorem m3Write1 (b0 : Byte) : Statement (.m3Write1 b0) := of_length_le _ (by simp [Instr.bytes])
theorem m3Write2 (b0 b1 : Byte) : Statement (.m3Write2 b0 b1) := of_length_le _ (by simp [Instr.bytes])
theorem m3Write3 (b0 b1 b2 : Byte) : Statement (.m3Write3 b0 b1 b2) := of_length_le _ (by simp [Instr.bytes])
theorem m3Write4 (b0 b1 b2 b3 : Byte) : Statement (.m3Write4 b0 b1 b2 b3) := of_length_le _ (by simp [Instr.bytes])
theorem m3Finish32 : Statement .m3Finish32 := of_length_le _ (by simp [Instr.bytes])
theorem m3Finish : Statement .m3Finish := of_length_le _ (by simp [Instr.bytes])
theorem m3Init : Statement .m3Init := of_length_le _ (by simp [Instr.bytes])
theorem fnvWrite0 : Statement .fnvWrite0 := of_length_le _ (by simp [Instr.bytes])
theorem fnvWrite1 (b0 : Byte) : Statement (.fnvWrite1 b0) := of_length_le _ (by simp [Instr.bytes])
theorem fnvWrite2 (b0 b1 : Byte) : Statement (.fnvWrite2 b0 b1) := of_length_le _ (by simp [Instr.bytes])
theorem fnvWrite3 (b0 b1 b2 : Byte) : Statement (.fnvWrite3 b0 b1 b2) := of_length_le _ (by simp [Instr.bytes])
theorem fnvWrite4 (b0 b1 b2 b3 : Byte) : Statement (.fnvWrite4 b0 b1 b2 b3) := of_length_le _ (by simp [Instr.bytes])
theorem fnvFinish32 : Statement .fnvFinish32 := of_length_le _ (by simp [Instr.bytes])
theorem fnvFinish : Statement .fnvFinish := of_length_le _ (by simp [Instr.bytes])
theorem fnvInit : Statement .fnvInit := of_length_le _ (by simp [Instr.bytes])

end Sys2Proof.Laws.EncodedFields
end

