-- ==== Sys2Proof/Laws/Step.lean ====
section
/-! SUPPORT. What a step can do, said once, and runs as folds of it. -/

namespace Sys2Proof.Machine

theorem step_of_wait {s : State} (h : s.input = []) : step s = .next s := by
  simp [step, accept_of_nil h]

theorem step_of_reset {s : State} {rest : List HostEvent} (h : s.input = .reset :: rest) :
    step s = .next { s with input := rest }.pulseReset := by
  simp [step, accept_of_cons h]

theorem step_of_unreset {s : State} {w : CmdWord} {rest : List HostEvent} (hr : s.wasReset = false)
    (h : s.input = .command w :: rest) : step s = .refused .beforeFirstReset := by
  simp [step, accept_of_cons h, hr]

theorem step_of_legal {s : State} {w : CmdWord} {rest : List HostEvent} {i : Instr} (hr : s.wasReset = true)
    (h : s.input = .command w :: rest) (hd : decode s.hasFnv w = .ok i) :
    step s = exec i { s with input := rest } := by
  have hd' : decode (State.hasFnv { s with input := rest }) w = .ok i := hd
  simp only [step, accept_of_cons h, hd']
  exact if_pos hr

theorem step_of_illegal {s : State} {w : CmdWord} {rest : List HostEvent} {e : DecodeError} (hr : s.wasReset = true)
    (h : s.input = .command w :: rest) (hd : decode s.hasFnv w = .error e) :
    step s = .next { s with input := rest, output := s.output ++ [.illegal] } := by
  have hd' : decode (State.hasFnv { s with input := rest }) w = .error e := hd
  simp only [step, accept_of_cons h, hd']
  exact if_pos hr

/-- The two contexts, which is all of the block that a command can observe. -/
abbrev Contexts := M3Context × Option Word

/-- A command's effect on the contexts, and its response. -/
def contextsAfterInstr (c : Contexts) (i : Instr) : Contexts × Response :=
  match i.ctx with
  | .m3 => (((m3Effect i c.1).1, c.2), .ok (m3Effect i c.1).2)
  | .fnv =>
    match c.2 with
    | some v => ((c.1, some (fnvEffect i v).1), .ok (fnvEffect i v).2)
    | none => (c, .illegal)

/-- An event's effect on the contexts, and the responses it gives. -/
def contextsAfter (c : Contexts) : HostEvent → Contexts × List Response
  | .reset => ((m3Zero, c.2.map (fun _ => fnvBasis)), [])
  | .command w =>
    match decode c.2.isSome w with
    | .ok i => ((contextsAfterInstr c i).1, [(contextsAfterInstr c i).2])
    | .error _ => (c, [.illegal])

/-- The same for a list of events, first to last. -/
def contextsAfterAll (c : Contexts) : List HostEvent → Contexts × List Response
  | [] => (c, [])
  | e :: es =>
    ((contextsAfterAll (contextsAfter c e).1 es).1,
     (contextsAfter c e).2 ++ (contextsAfterAll (contextsAfter c e).1 es).2)

/-- The contexts a state holds. -/
def State.contexts (s : State) : Contexts := (s.m3, s.fnvState)

/-- `exec` by the contexts alone. -/
theorem exec_eq_contexts (i : Instr) (s : State) :
    exec i s = .next { s with
      m3 := (contextsAfterInstr s.contexts i).1.1,
      fnvState := (contextsAfterInstr s.contexts i).1.2,
      output := s.output ++ [(contextsAfterInstr s.contexts i).2] } := by
  cases hc : i.ctx with
  | m3 => simp [exec_of_m3 hc, onM3_eq, contextsAfterInstr, hc, State.contexts]
  | fnv =>
    cases hf : s.fnvState with
    | none => simp [exec_of_fnv hc, onFnv_of_none hf, contextsAfterInstr, hc, State.contexts, hf]
    | some v => simp [exec_of_fnv hc, onFnv_of_some hf, contextsAfterInstr, hc, State.contexts, hf]

/-- A step after reset with an event to take: it goes on, by the contexts alone. -/
theorem step_eq_contexts {s : State} {e : HostEvent} {rest : List HostEvent} (hr : s.wasReset = true)
    (h : s.input = e :: rest) :
    step s = .next {
      m3 := (contextsAfter s.contexts e).1.1,
      fnvState := (contextsAfter s.contexts e).1.2,
      wasReset := true, input := rest,
      output := s.output ++ (contextsAfter s.contexts e).2 } := by
  cases e with
  | reset => simp [step_of_reset h, State.pulseReset, contextsAfter, State.contexts]
  | command w =>
    cases hd : decode s.hasFnv w with
    | error e =>
      have hd' : decode s.fnvState.isSome w = .error e := hd
      simp [step_of_illegal hr h hd, contextsAfter, State.contexts, hd', hr]
    | ok i =>
      have hd' : decode s.fnvState.isSome w = .ok i := hd
      simp [step_of_legal hr h hd, exec_eq_contexts, contextsAfter, State.contexts, hd', hr]

/-- `HAS_FNV` is never changed. -/
theorem contextsAfter_isSome (c : Contexts) (e : HostEvent) : (contextsAfter c e).1.2.isSome = c.2.isSome := by
  cases e with
  | reset => simp [contextsAfter]
  | command w =>
    simp only [contextsAfter]
    split
    · rename_i i _
      simp only [contextsAfterInstr]
      split
      · rfl
      · split <;> simp_all
    · rfl

theorem contextsAfterAll_append (c : Contexts) (es fs : List HostEvent) :
    contextsAfterAll c (es ++ fs) =
      ((contextsAfterAll (contextsAfterAll c es).1 fs).1,
       (contextsAfterAll c es).2 ++ (contextsAfterAll (contextsAfterAll c es).1 fs).2) := by
  induction es generalizing c with
  | nil => simp [contextsAfterAll]
  | cons e es ih => simp [contextsAfterAll, ih, List.append_assoc]

theorem contextsAfterAll_isSome (c : Contexts) (es : List HostEvent) :
    (contextsAfterAll c es).1.2.isSome = c.2.isSome := by
  induction es generalizing c with
  | nil => rfl
  | cons e es ih => simp [contextsAfterAll, ih, contextsAfter_isSome]

theorem run_zero (s : State) : Host.Core.run Sys2Proof.core 0 s = .next s := rfl

theorem run_succ_of_next {s t : State} (n : Nat) (h : step s = .next t) :
    Host.Core.run Sys2Proof.core (n + 1) s = Host.Core.run Sys2Proof.core n t := by
  have h' : Sys2Proof.core.step s = .next t := h
  simp [Host.Core.run, h']

/-- A run of exactly the host's events, by the contexts alone. -/
theorem run_eq_contexts {s : State} (es : List HostEvent) (hr : s.wasReset = true) (h : s.input = es) :
    Host.Core.run Sys2Proof.core es.length s = .next {
      m3 := (contextsAfterAll s.contexts es).1.1,
      fnvState := (contextsAfterAll s.contexts es).1.2,
      wasReset := true, input := [],
      output := s.output ++ (contextsAfterAll s.contexts es).2 } := by
  induction es generalizing s with
  | nil =>
    cases s
    simp_all [run_zero, contextsAfterAll, State.contexts]
  | cons e es ih =>
    rw [List.length_cons, run_succ_of_next _ (step_eq_contexts hr h), ih rfl rfl]
    simp [contextsAfterAll, State.contexts, List.append_assoc]

theorem runEvents_eq_contexts {s : State} (es : List HostEvent) (hr : s.wasReset = true) :
    runEvents es s = .next {
      m3 := (contextsAfterAll s.contexts es).1.1,
      fnvState := (contextsAfterAll s.contexts es).1.2,
      wasReset := true, input := [],
      output := s.output ++ (contextsAfterAll s.contexts es).2 } :=
  run_eq_contexts es (s := s.load es) hr rfl

end Sys2Proof.Machine
end

