-- ==== Sys2Proof/Machine/Asm.lean ====
section
/-! DEFINITION. The textual syntax of commands and pseudo-operations (30_encoding.md R87, R88), read into lists of
commands, and a command's own spelling. Nothing of the machine depends on it. What R87 and R88 leave open of the text (blanks, the case
of hexadecimal digits) is in notes/assumptions/17.md. -/

namespace Sys2Proof.Machine

/-- A blank inside a line. -/
def isBlank (c : Char) : Bool := c = ' ' || c = '\t' || c = '\r'

/-- Blanks taken off both ends. -/
def trimBlanks (cs : List Char) : List Char :=
  ((cs.dropWhile isBlank).reverse.dropWhile isBlank).reverse

/-- The pieces of a text between the characters `d`. -/
def splitAtChar (d : Char) : List Char → List (List Char)
  | [] => [[]]
  | c :: cs =>
    if c = d then [] :: splitAtChar d cs
    else
      match splitAtChar d cs with
      | [] => [[c]]
      | x :: xs => (c :: x) :: xs

/-- A line without its comment (`;`) and without a result (`->`), R87; `quoted` while inside a quoted string, where
neither mark counts. DESIGN CHOICE (notes/assumptions/17.md): R87 gives a result by an example only, and what stands
behind `->` is dropped unread, whatever it is and whichever command it stands behind. -/
def commandPart (quoted : Bool) : List Char → List Char
  | [] => []
  | c :: cs =>
    if c = '"' then c :: commandPart (!quoted) cs
    else if quoted then c :: commandPart quoted cs
    else if c = ';' then []
    else if c = '-' && cs.head? = some '>' then []
    else c :: commandPart quoted cs

/-- The value of a decimal digit. -/
def decDigit (c : Char) : Option Nat :=
  if '0' ≤ c ∧ c ≤ '9' then some (c.toNat - 48) else none

/-- The value of a hexadecimal digit. -/
def hexDigit (c : Char) : Option Nat :=
  if '0' ≤ c ∧ c ≤ '9' then some (c.toNat - 48)
  else if 'a' ≤ c ∧ c ≤ 'f' then some (c.toNat - 87)
  else if 'A' ≤ c ∧ c ≤ 'F' then some (c.toNat - 55)
  else none

/-- A decimal number behind the digits whose value is `n`. -/
def decNumber (n : Nat) : List Char → Option Nat
  | [] => some n
  | c :: cs =>
    match decDigit c with
    | some d => decNumber (10 * n + d) cs
    | none => none

/-- A byte operand: `0xHH`, or a decimal 0..255 (R87). -/
def byteOperand (cs : List Char) : Option Byte :=
  match cs with
  | [] => none
  | ['0', 'x', hi, lo] =>
    match hexDigit hi, hexDigit lo with
    | some a, some b => some (BitVec.ofNat 8 (16 * a + b))
    | _, _ => none
  | cs =>
    match decNumber 0 cs with
    | some n => if n < 256 then some (BitVec.ofNat 8 n) else none
    | none => none

/-- A list of byte operands, all of which must be read. -/
def byteOperands : List (List Char) → Option (List Byte)
  | [] => some []
  | x :: xs =>
    match byteOperand (trimBlanks x), byteOperands xs with
    | some b, some bs => some (b :: bs)
    | _, _ => none

/-- The comma-separated byte operands of a command, first operand first (R87); none at all is the empty list. -/
def byteList (cs : List Char) : Option (List Byte) :=
  match cs with
  | [] => some []
  | cs => byteOperands (splitAtChar ',' cs)

/-- The bytes of a quoted string behind its opening quote: ASCII codes, `\n` for `0x0A`, no terminating zero (R88). -/
def quotedBytes : List Char → Option (List Byte)
  | [] => none
  | ['"'] => some []
  | '"' :: _ => none
  | '\\' :: 'n' :: cs => (quotedBytes cs).map (0x0A#8 :: ·)
  | '\\' :: _ => none
  | c :: cs => if c.toNat < 128 then (quotedBytes cs).map (BitVec.ofNat 8 c.toNat :: ·) else none

/-- `<bytes>` of a pseudo-operation, R88: a byte list or a quoted string. -/
def bytesOperand (cs : List Char) : Option (List Byte) :=
  match cs with
  | '"' :: rest => quotedBytes rest
  | cs => byteList cs

/-- A function of one context spelled `fn` with the operand text `ops` (R87, R88). -/
def assembleFn (c : Ctx) (fn ops : List Char) : Option (List Instr) :=
  if fn = "WRITE".toList then
    match byteList ops with
    | some bs => (writeOf c bs).map (fun i => [i])
    | none => none
  else if fn = "WRITEN".toList then
    (bytesOperand ops).map (match c with | .m3 => m3WriteN | .fnv => fnvWriteN)
  else if fn = "HASH".toList then
    (bytesOperand ops).map (match c with | .m3 => m3Hash | .fnv => fnvHash)
  else if ops ≠ [] then none
  else if fn = "FINISH32".toList then some [match c with | .m3 => .m3Finish32 | .fnv => .fnvFinish32]
  else if fn = "FINISH".toList then some [match c with | .m3 => .m3Finish | .fnv => .fnvFinish]
  else if fn = "INIT".toList then some [match c with | .m3 => .m3Init | .fnv => .fnvInit]
  else none

/-- One line of R87 as its commands: none of them for an empty line or a comment, one for a command, several for a
pseudo-operation; no answer for a line that is not of this language. -/
def assembleLine (line : List Char) : Option (List Instr) :=
  let text := trimBlanks (commandPart false line)
  let ops := trimBlanks (text.dropWhile (fun c => !isBlank c))
  match text.takeWhile (fun c => !isBlank c) with
  | [] => some []
  | 'M' :: '3' :: '.' :: fn => assembleFn .m3 fn ops
  | 'F' :: 'N' :: 'V' :: '.' :: fn => assembleFn .fnv fn ops
  | _ => none

/-- Lines assembled one after another. -/
def assembleLines : List (List Char) → Option (List Instr)
  | [] => some []
  | l :: ls =>
    match assembleLine l, assembleLines ls with
    | some is, some rest => some (is ++ rest)
    | _, _ => none

/-- A text with one command a line (R87). -/
def assemble (text : String) : Option (List Instr) :=
  assembleLines (splitAtChar '\n' text.toList)

/-- A command's mnemonic, R72. -/
def mnemonic (i : Instr) : String :=
  (match i.ctx with
    | .m3 => "M3."
    | .fnv => "FNV.") ++
  (match i.fn with
    | .write => "WRITE"
    | .finish32 => "FINISH32"
    | .finish => "FINISH"
    | .init => "INIT")

/-- A hexadecimal digit. -/
def hexChar (n : Nat) : Char :=
  if n < 10 then Char.ofNat (48 + n) else Char.ofNat (87 + n)

/-- A byte written `0xHH`, R87. -/
def byteText (b : Byte) : String :=
  String.ofList ['0', 'x', hexChar (b.toNat / 16), hexChar (b.toNat % 16)]

/-- A command as R87 writes it. -/
def asmText (i : Instr) : String :=
  match i.bytes with
  | [] => mnemonic i
  | bs => mnemonic i ++ " " ++ String.intercalate "," (bs.map byteText)

end Sys2Proof.Machine
end

