-- ==== Sys2Proof/Tests/Slice0.lean ====
section
/-! SUPPORT. The model's own tests: well-formedness, decoding of written-out words, one step of each command, and a
witness for the hypotheses of each obligation that has some. Every expected value is of 95_test_vectors.md (the
section is named at the test) or of the rule that is named; none is the model's own answer. -/

namespace Sys2Proof.Tests
open Sys2Proof Sys2Proof.Machine

/-! ### Helpers -/

/-- The next state of an outcome that has one. -/
def nextOf (o : Host.Outcome State Fault Refusal) : Option State :=
  match o with
  | .next t => some t
  | .fault _ => none
  | .refused _ => none

/-- Whether an outcome is the refusal of a command before the first reset. -/
def isUnresetRefusal (o : Host.Outcome State Fault Refusal) : Bool :=
  match o with
  | .next _ => false
  | .fault _ => false
  | .refused r => decide (r = .beforeFirstReset)

/-- The MurmurHash3 context of an outcome's next state. -/
def m3Of (o : Host.Outcome State Fault Refusal) : Option M3Context := (nextOf o).map (fun t => t.m3)

/-- `fnv_state` of an outcome's next state. -/
def fnvOf (o : Host.Outcome State Fault Refusal) : Option (Option Word) := (nextOf o).map (fun t => t.fnvState)

/-- The last response word of an outcome's next state, as a number. -/
def lastWord (o : Host.Outcome State Fault Refusal) : Option Nat :=
  (nextOf o).bind (fun t => t.output.getLast?.map (fun r => r.word.toNat))

/-- A command word read, or why it is refused, in plain data. -/
def reading (hasFnv : Bool) (w : CmdWord) : Instr ⊕ DecodeError :=
  match decode hasFnv w with
  | .ok i => .inl i
  | .error e => .inr e

/-- A state after reset, of an instance with the FNV-1a context, that holds the context `m`. -/
def holding (m : M3Context) : State := (State.resetWith true).setM3 m

/-- A state after reset that holds the accumulator `v`. -/
def holdingFnv (v : Word) : State := (State.resetWith true).setFnv v

/-- A state after reset about to take `es`. -/
def about (hasFnv : Bool) (es : List HostEvent) : State := (State.resetWith hasFnv).load es

/-- A block not yet reset, about to take `es`; its registers are arbitrary. -/
def unreset (es : List HostEvent) : State :=
  { m3 := { mixState := 0xdeadbeef, processed := 7, carry := .two 0x01 0x02 }, fnvState := some 0x12345678,
    wasReset := false, input := es, output := [] }

/-! ### Well-formedness: the one check there is, R72 and R84 (2) -/

theorem test_wf_refuses_fnvWrite0 : (Instr.fnvWrite0).wf false = false := by decide
theorem test_wf_refuses_fnvWrite4 : (Instr.fnvWrite4 0x66 0x6f 0x6f 0x62).wf false = false := by decide
theorem test_wf_refuses_fnvFinish32 : (Instr.fnvFinish32).wf false = false := by decide
theorem test_wf_refuses_fnvFinish : (Instr.fnvFinish).wf false = false := by decide
theorem test_wf_refuses_fnvInit : (Instr.fnvInit).wf false = false := by decide
theorem test_wf_accepts_fnvInit : (Instr.fnvInit).wf true = true := by decide
theorem test_wf_accepts_m3Init : (Instr.m3Init).wf false = true := by decide

/-! ### Decoding: one written-out word for each constructor (section 2.8; R71 and R81 for the ones it lacks)

The comment of a word gives its bits: `rsv ctx fn len | lane 3 | lane 2 | lane 1 | lane 0`. -/

/- 00 0 00 000 | 0 | 0 | 0 | 0 -/
theorem test_decode_m3Write0 : decodeTableWord 40 0x0000000000 = some .m3Write0 := by decide
/- 00 0 00 001 | 0 | 0 | 0 | 11111111 -/
theorem test_decode_m3Write1 : decodeTableWord 40 0x01000000ff = some (.m3Write1 0xff) := by decide
/- 00 0 00 010 | 0 | 0 | 10110001 | 10110000 -/
theorem test_decode_m3Write2 : decodeTableWord 40 0x020000b1b0 = some (.m3Write2 0xb0 0xb1) := by decide
/- 00 0 00 011 | 0 | 01100101 | 01000011 | 00100001 -/
theorem test_decode_m3Write3 : decodeTableWord 40 0x0300654321 = some (.m3Write3 0x21 0x43 0x65) := by decide
/- 00 0 00 100 | 10000111 | 01100101 | 01000011 | 00100001 -/
theorem test_decode_m3Write4 : decodeTableWord 40 0x0487654321 = some (.m3Write4 0x21 0x43 0x65 0x87) := by decide
/- 00 0 01 000 | 0 | 0 | 0 | 0 -/
theorem test_decode_m3Finish32 : decodeTableWord 40 0x0800000000 = some .m3Finish32 := by decide
/- 00 0 10 000 | 0 | 0 | 0 | 0 -/
theorem test_decode_m3Finish : decodeTableWord 40 0x1000000000 = some .m3Finish := by decide
/- 00 0 11 000 | 0 | 0 | 0 | 0 -/
theorem test_decode_m3Init : decodeTableWord 40 0x1800000000 = some .m3Init := by decide
/- 00 1 00 000 | 0 | 0 | 0 | 0 -/
theorem test_decode_fnvWrite0 : decodeTableWord 40 0x2000000000 = some .fnvWrite0 := by decide
/- 00 1 00 001 | 0 | 0 | 0 | 01100001 -/
theorem test_decode_fnvWrite1 : decodeTableWord 40 0x2100000061 = some (.fnvWrite1 0x61) := by decide
/- 00 1 00 010 | 0 | 0 | 01110010 | 01100001 -/
theorem test_decode_fnvWrite2 : decodeTableWord 40 0x2200007261 = some (.fnvWrite2 0x61 0x72) := by decide
/- 00 1 00 011 | 0 | 01110010 | 01100001 | 01100010 -/
theorem test_decode_fnvWrite3 : decodeTableWord 40 0x2300726162 = some (.fnvWrite3 0x62 0x61 0x72) := by decide
/- 00 1 00 100 | 01100010 | 01101111 | 01101111 | 01100110 -/
theorem test_decode_fnvWrite4 : decodeTableWord 40 0x24626f6f66 = some (.fnvWrite4 0x66 0x6f 0x6f 0x62) := by decide
/- 00 1 01 000 | 0 | 0 | 0 | 0 -/
theorem test_decode_fnvFinish32 : decodeTableWord 40 0x2800000000 = some .fnvFinish32 := by decide
/- 00 1 10 000 | 0 | 0 | 0 | 0 -/
theorem test_decode_fnvFinish : decodeTableWord 40 0x3000000000 = some .fnvFinish := by decide
/- 00 1 11 000 | 0 | 0 | 0 | 0 -/
theorem test_decode_fnvInit : decodeTableWord 40 0x3800000000 = some .fnvInit := by decide

/-! Illegal words, section 2.8, with the condition of R84 that the table names. -/

theorem test_illegal_bit38 : reading true 0x4000000000 = .inr .reservedBits := by decide
theorem test_illegal_bit39 : reading true 0x8000000000 = .inr .reservedBits := by decide
theorem test_illegal_all_ones : reading true 0xffffffffff = .inr .reservedBits := by decide
theorem test_illegal_absent_fnv : reading false 0x2100000061 = .inr .absentExtension := by decide
theorem test_illegal_finish32_data : reading true 0x0800000001 = .inr .operandsOfZ := by decide
theorem test_illegal_finish32_len : reading true 0x0900000000 = .inr .operandsOfZ := by decide
theorem test_illegal_fnvInit_len : reading true 0x3f00000000 = .inr .operandsOfZ := by decide
theorem test_illegal_len5 : reading true 0x0500000000 = .inr .reservedLength := by decide
theorem test_illegal_len7 : reading true 0x0700000000 = .inr .reservedLength := by decide
theorem test_illegal_lane0 : reading true 0x0000000001 = .inr .unusedLanes := by decide
theorem test_illegal_lane1 : reading true 0x0100000100 = .inr .unusedLanes := by decide
theorem test_illegal_lane3 : reading true 0x03ff000000 = .inr .unusedLanes := by decide

/-! Encoding, section 2.8 "Round trip". -/

theorem test_encode_m3Write3 : encode (.m3Write3 0x21 0x43 0x65) = 0x0300654321 := by decide
theorem test_encode_fnvFinish : encode .fnvFinish = 0x3000000000 := by decide

/-! ### One command each -/

/- section 2.3, row c = 2, n = 0 -/
theorem test_m3Write0 : m3Of (exec .m3Write0 (holding { mixState := 0, processed := 2, carry := .two 0xa0 0xa1 })) =
    some { mixState := 0, processed := 2, carry := .two 0xa0 0xa1 } := by decide
/- section 2.3, row c = 3, n = 1 -/
theorem test_m3Write1 :
    m3Of (exec (.m3Write1 0xb0) (holding { mixState := 0, processed := 3, carry := .three 0xa0 0xa1 0xa2 })) =
    some { mixState := 0xdbee9a23, processed := 4, carry := .zero } := by decide
/- section 2.5, "abcdefg" as 1, 2, 4: the second beat -/
theorem test_m3Write2 : m3Of (exec (.m3Write2 0x62 0x63) (holding { mixState := 0, processed := 1, carry := .one 0x61 })) =
    some { mixState := 0, processed := 3, carry := .three 0x61 0x62 0x63 } := by decide
/- section 2.6: the wrap of `processed` -/
theorem test_m3Write3_wraps : m3Of (exec (.m3Write3 0x33 0x44 0x55)
      (holding { mixState := 0x12345678, processed := 0xfffffffe, carry := .two 0x11 0x22 })) =
    some { mixState := 0x008f4fe6, processed := 1, carry := .one 0x55 } := by decide
/- section 2.3, row c = 2, n = 4 -/
theorem test_m3Write4 :
    m3Of (exec (.m3Write4 0xb0 0xb1 0xb2 0xb3) (holding { mixState := 0, processed := 2, carry := .two 0xa0 0xa1 })) =
    some { mixState := 0x5adbfd08, processed := 6, carry := .two 0xb2 0xb3 } := by decide
/- section 1.2, `21 43 65 87`: the byte-order check -/
theorem test_m3Write4_byte_order :
    m3Of (exec (.m3Write4 0x21 0x43 0x65 0x87) (holding { mixState := 0, processed := 0, carry := .zero })) =
    some { mixState := 0xbb095db4, processed := 4, carry := .zero } := by decide
/- section 2.4: a tail of two in a state at the end of the count -/
theorem test_m3Finish32 : lastWord (exec .m3Finish32
      (holding { mixState := 0x12345678, processed := 0xfffffffe, carry := .two 0x11 0x22 })) =
    some 0x8213c7a7 := by decide
/- sections 1.2 and 2.4: a tail of three, `21 43 65`, and the context stays -/
theorem test_m3Finish32_keeps :
    nextOf (exec .m3Finish32 (holding { mixState := 0, processed := 3, carry := .three 0x21 0x43 0x65 })) =
    some ((holding { mixState := 0, processed := 3, carry := .three 0x21 0x43 0x65 }).respond (.ok (.hash32 0x7e4a8634))) := by
  decide
/- section 2.4, `M3.FINISH` of `21 43 65 87`: a zero upper half under a set top bit -/
theorem test_m3Finish : lastWord (exec .m3Finish (holding { mixState := 0xbb095db4, processed := 4, carry := .zero })) =
    some 0x00000000f55b516b := by decide
/- section 3, P2 step 6 -/
theorem test_m3Init : m3Of (exec .m3Init (holding { mixState := 0xbb095db4, processed := 4, carry := .zero })) =
    some { mixState := 0, processed := 0, carry := .zero } := by decide
/- R152: no byte, no change -/
theorem test_fnvWrite0 : fnvOf (exec .fnvWrite0 (holdingFnv 0xbf9cf968)) = some (some 0xbf9cf968) := by decide
/- section 2.7: XOR before the multiply, and the multiply wraps -/
theorem test_fnvWrite1 : fnvOf (exec (.fnvWrite1 0xff) (holdingFnv 0xffffffff)) = some (some 0xfffe6d00) := by decide
/- section 2.7, "foobar" as 4, 2 -/
theorem test_fnvWrite2 : fnvOf (exec (.fnvWrite2 0x61 0x72) (holdingFnv 0x3f5076ef)) = some (some 0xbf9cf968) := by decide
/- section 2.7, "foobar" as 3, 3 -/
theorem test_fnvWrite3 : fnvOf (exec (.fnvWrite3 0x62 0x61 0x72) (holdingFnv 0xa9f37ed7)) = some (some 0xbf9cf968) := by
  decide
/- section 1.1, "chongo was here!\n", the first beat -/
theorem test_fnvWrite4 : fnvOf (exec (.fnvWrite4 0x63 0x68 0x6f 0x6e) (holdingFnv 0x811c9dc5)) = some (some 0xac297727) := by
  decide
/- section 1.1, "foobar" -/
theorem test_fnvFinish32 : lastWord (exec .fnvFinish32 (holdingFnv 0xbf9cf968)) = some 0xbf9cf968 := by decide
/- section 3, P3 step 11 -/
theorem test_fnvFinish : lastWord (exec .fnvFinish (holdingFnv 0x811c9dc5)) = some 0x00000000811c9dc5 := by decide
/- section 3, P3 step 10 -/
theorem test_fnvInit : fnvOf (exec .fnvInit (holdingFnv 0xbf9cf968)) = some (some 0x811c9dc5) := by decide

/-! ### Steps -/

/- section 2.8, response words: an illegal word is answered `2^64` and changes nothing -/
theorem test_step_illegal : lastWord (step (about true [.command 0x0500000000])) = some 0x10000000000000000 := by decide
theorem test_step_illegal_keeps : m3Of (step ((holding { mixState := 1, processed := 1, carry := .one 0x61 }).sendFirst
    0x0500000000)) = some { mixState := 1, processed := 1, carry := .one 0x61 } := by decide
/- section 3, P3 with HAS_FNV = false, step 5 -/
theorem test_step_without_fnv : lastWord (step (about false [.command 0x2300726162])) = some 0x10000000000000000 := by decide
/- R190: a reset constructs both contexts, of a block that was never reset too -/
theorem test_step_reset : (nextOf (step (unreset [.reset]))).map (fun t => (t.m3, t.fnvState, t.wasReset)) =
    some ({ mixState := 0, processed := 0, carry := .zero }, some 0x811c9dc5, true) := by decide
/- R191: before it a command is refused -/
theorem test_step_unreset : isUnresetRefusal (step (unreset [.command 0x0800000000])) = true := by decide
/- R181: with nothing sent the block waits -/
theorem test_step_wait : nextOf (step State.reset) = some State.reset := by decide
/- section 1.2, `21`: the word the host's interface places is the one the next step runs -/
theorem test_withFetchWord : m3Of (step (State.reset.withFetchWord 40 0x0100000021)) =
    some { mixState := 0, processed := 1, carry := .one 0x21 } := by decide
/- R38 -/
theorem test_reset : State.reset =
    { m3 := { mixState := 0, processed := 0, carry := .zero }, fnvState := some 0x811c9dc5, wasReset := true,
      input := [], output := [] } := by decide

/-! ### The one-shot functions and the pseudo-operations -/

/- section 2.2, "Hello, world!": three blocks and a tail of one -/
theorem test_murmur3_32 : murmur3_32 [0x48, 0x65, 0x6c, 0x6c, 0x6f, 0x2c, 0x20, 0x77, 0x6f, 0x72, 0x6c, 0x64, 0x21] =
    0xc0363e43 := by decide
/- section 2.2, the same bytes -/
theorem test_fnv1a_32 : fnv1a_32 [0x48, 0x65, 0x6c, 0x6c, 0x6f, 0x2c, 0x20, 0x77, 0x6f, 0x72, 0x6c, 0x64, 0x21] =
    0xed90f094 := by decide
/- R161's cutting, section 2.2's words for "Hello, world!" -/
theorem test_m3WriteN : (m3WriteN [0x48, 0x65, 0x6c, 0x6c, 0x6f, 0x2c, 0x20, 0x77, 0x6f, 0x72, 0x6c, 0x64, 0x21]).map encode =
    [0x046c6c6548, 0x0477202c6f, 0x04646c726f, 0x0100000021] := by decide

/-! ### The textual syntax, R87 and R88 -/

theorem test_assemble_commands : assemble "M3.WRITE 0x21,67 ; two bytes\n\nM3.FINISH32 -> 0x7e4a8634\nFNV.INIT" =
    some [.m3Write2 0x21 0x43, .m3Finish32, .fnvInit] := by decide
theorem test_assemble_pseudo : assemble "FNV.HASH \"a\\n\"" =
    some [.fnvInit, .fnvWrite2 0x61 0x0a, .fnvFinish32] := by decide
theorem test_assemble_refuses : assemble "M3.WRITE 256" = none := by decide
theorem test_assemble_five_bytes : assemble "M3.WRITE 1,2,3,4,5" = none := by decide
theorem test_asmText : asmText (.m3Write3 0x21 0x43 0x65) = "M3.WRITE 0x21,0x43,0x65" := by decide

/-! ### Witnesses: values that meet the hypotheses of each obligation, at the boundaries of its clauses -/

/- ArithmeticPrimitivesFollowTheirFormulas: bits 0 and 31, shifts by 0 and 31, rotations by 1 and 31 -/
theorem witness_arithmetic : (0 < 32 ∧ 31 < 32) ∧ (0 ≤ 31 ∧ 31 ≤ 31) ∧ (1 ≤ 1 ∧ 1 ≤ 31 ∧ 31 ≤ 31) ∧
    shr32 0x80000000 31 = 1 ∧ shl32 3 31 = 0x80000000 ∧ rotl32 0x80000001 1 = 3 ∧ rotl32 2 31 = 1 := by decide
/- KMixIsStepsOneToThree; section 2.1, `k = 0xffffffff` -/
theorem witness_kMix : (0x3361d2af : Word) = mul32 0xffffffff 0xcc9e2d51 ∧ (0xe95799b0 : Word) = rotl32 0x3361d2af 15 := by
  decide
/- BlockMixIsStepsOneToSix; section 1.2, `ff ff ff ff` -/
theorem witness_blockMix : (0xbbeeb010 : Word) = xor32 0 (kMix 0xffffffff) ∧ (0xd602177d : Word) = rotl32 0xbbeeb010 13 := by
  decide
/- FmixIsTheFiveLines; section 2.4, `x = 0xffffffff` -/
theorem witness_fmix : (0xffff0000 : Word) = xor32 0xffffffff (shr32 0xffffffff 16) ∧
    (0x35950000 : Word) = mul32 0xffff0000 0x85ebca6b ∧ (0x3594aca8 : Word) = xor32 0x35950000 (shr32 0x35950000 13) ∧
    (0x81f1eec8 : Word) = mul32 0x3594aca8 0xc2b2ae35 := by decide
/- M3WriteCommandIsM3WriteOfItsBytes, AnyCutIntoBeatsIsTheSame, FnvWriteStepsThroughItsBytes: the shortest and the longest
beat of both contexts -/
theorem witness_beats : (∀ i ∈ [Instr.m3Write0, .m3Write4 1 2 3 4], i.ctx = .m3 ∧ i.fn = .write) ∧
    (∀ i ∈ [Instr.fnvWrite0, .fnvWrite4 1 2 3 4], i.ctx = .fnv ∧ i.fn = .write) ∧
    (State.resetWith true).wasReset = true ∧ (State.resetWith true).fnvState = some 0x811c9dc5 := by decide
/- M3WriteFollowsItsThreeCases: nothing pending; two pending and two bytes, which is 4; two pending and one byte, which is 3 -/
theorem witness_threeCases : Carry.zero.len = 0 ∧
    ((Carry.two 1 2).len ≠ 0 ∧ (Carry.two 1 2).len + [(3 : Byte), 4].length ≥ 4) ∧
    ((Carry.two 1 2).len ≠ 0 ∧ (Carry.two 1 2).len + [(3 : Byte)].length < 4) := by decide
/- ProcessedWrapsSilently: exactly `2^32` -/
theorem witness_wrap : [(1 : Byte), 2, 3, 4].length < 2 ^ 32 ∧
    (0xfffffffc : Word).toNat + [(1 : Byte), 2, 3, 4].length ≥ 2 ^ 32 ∧
    (Instr.m3Write4 1 2 3 4).ctx = .m3 ∧ (Instr.m3Write4 1 2 3 4).fn = .write ∧
    (holding { mixState := 0, processed := 0xfffffffc, carry := .zero }).m3.processed.toNat +
      (Instr.m3Write4 1 2 3 4).bytes.length ≥ 2 ^ 32 := by decide
/- M3Finish32AnswersTheHash: a state with each pending length -/
theorem witness_finish : (holding { mixState := 0, processed := 0, carry := .zero }).m3.carry = .zero ∧
    (holding { mixState := 0, processed := 1, carry := .one 0x21 }).m3.carry = .one 0x21 ∧
    (holding { mixState := 0, processed := 2, carry := .two 0x21 0x43 }).m3.carry = .two 0x21 0x43 ∧
    (holding { mixState := 0, processed := 3, carry := .three 0x21 0x43 0x65 }).m3.carry = .three 0x21 0x43 0x65 := by decide
/- FinishIsFinish32Widened, FnvInitConstructsTheBasis, EmptyStreamHashesAreFixed, M3HashAnswersTheOneShotHash,
FnvHashAnswersTheOneShotHash, ResetConstructsEveryContext (its second clause), ResetStateFollowsTheResetTable: a state
after reset with the FNV-1a context -/
theorem witness_hasFnv : (holdingFnv 5).hasFnv = true ∧ (holdingFnv 5).wasReset = true := by decide
/- FnvWriteStepsThroughItsBytes, FnvFinishAnswersTheAccumulator -/
theorem witness_fnvState : (holdingFnv 5).fnvState = some 5 := by decide
/- WithoutFnvItsCommandsAreIllegal -/
theorem witness_withoutFnv : (about false [.command 0x3800000000]).wasReset = true ∧
    (about false [.command 0x3800000000]).fnvState = none ∧
    (about false [.command 0x3800000000]).input = .command 0x3800000000 :: [] ∧
    (0x3800000000 : CmdWord).getLsbD 37 = true := by decide
/- WriteNIsOneWriteInBeats: the first and the last full beat of seven bytes are beat 0; there is a remainder -/
theorem witness_writeN : 0 < [(1 : Byte), 2, 3, 4, 5, 6, 7].length / 4 ∧
    [(1 : Byte), 2, 3, 4, 5, 6, 7].length % 4 > 0 ∧ State.reset.wasReset = true := by decide
/- RepeatedFinishAnswersTheSame: both finish commands of both contexts -/
theorem witness_repeated : ∀ i ∈ [Instr.m3Finish32, .m3Finish, .fnvFinish32, .fnvFinish],
    State.reset.wasReset = true ∧ i.wf State.reset.hasFnv = true ∧ (i.fn = .finish32 ∨ i.fn = .finish) := by decide
/- FinishCommandsLeaveNoTrace: a program with commands to keep and to take out -/
theorem witness_noTrace : State.reset.wasReset = true ∧ State.reset.output = [] ∧
    ([Instr.m3Write1 1, .m3Finish32, .m3Init, .m3Finish].filter (fun i => decide (i.fn = .write ∨ i.fn = .init))) =
      [Instr.m3Write1 1, .m3Init] := by decide

/-- A state that stands for the streams "abcdefg" (section 2.5) and "a" (section 1.1), with one command to take. -/
def midStream : State :=
  ((holding { mixState := 0x86a7049e, processed := 7, carry := .three 0x65 0x66 0x67 }).setFnv 0xe40c292c).load
    [.command 0x0100000068]

/- EveryStepKeepsTheStreamMeaning -/
theorem witness_streamMeaning : midStream.wasReset = true ∧ midStream.input = .command 0x0100000068 :: [] ∧
    midStream.Represents [0x61, 0x62, 0x63, 0x64, 0x65, 0x66, 0x67] [0x61] := by
  refine ⟨by decide, by decide, ⟨by decide, by decide, by decide, by decide⟩, ?_⟩
  intro v hv
  have h : midStream.fnvState = some 0xe40c292c := by decide
  have hf : fnv1a_32 [0x61] = 0xe40c292c := by decide
  rw [h] at hv
  rw [hf]
  exact (Option.some.inj hv).symm

/- StepRunsTheDecodedCommand, IllegalWordsAreTheFiveConditions (its second clause), ResponseWordsFollowTheirTable: a word
that decodes and one that does not -/
theorem witness_step : (about true [.command 0x0800000000]).wasReset = true ∧
    (about true [.command 0x0800000000]).hasFnv = true ∧
    (about true [.command 0x0800000000]).input = .command 0x0800000000 :: [] ∧
    reading true 0x0800000000 = .inl .m3Finish32 ∧
    (about true [.command 0x0500000000]).input = .command 0x0500000000 :: [] ∧
    reading true 0x0500000000 = .inr .reservedLength := by decide
/- IllegalWordsLeaveNoTrace: two illegal words -/
theorem witness_illegalWords : ∀ w ∈ [(0x0500000000 : CmdWord), 0x8000000000], ∃ e, decode State.reset.hasFnv w = .error e := by
  intro w hw
  simp only [List.mem_cons, List.not_mem_nil, or_false] at hw
  rcases hw with rfl | rfl
  · exact ⟨.reservedLength, rfl⟩
  · exact ⟨.reservedBits, rfl⟩
/- OneResponseForEachCommand, EveryRunAfterResetIsSafe, ResetDiscardsBothStreams -/
theorem witness_afterReset : midStream.wasReset = true := by decide
/- ResetConstructsEveryContext (its first clause): before the first reset and after -/
theorem witness_reset : (unreset [.reset]).input = .reset :: [] ∧ (about true [.reset]).input = .reset :: [] := by decide
/- ResetStateFollowsTheResetTable, its last clause -/
theorem witness_unreset : (unreset [.command 0x0800000000]).wasReset = false ∧
    (unreset [.command 0x0800000000]).input = .command 0x0800000000 :: [] := by decide
/- WaitingKeepsAllState: after reset and before -/
theorem witness_wait : (about true []).input = [] ∧ (unreset []).input = [] := by decide
/- EveryStepKeepsCountAndCarry: seven bytes taken, three pending, and a step that goes on -/
theorem witness_countAndCarry : midStream.m3.carry.len = midStream.m3.processed.toNat % 4 ∧
    (nextOf (step midStream)).isSome = true := by decide
/- EveryStepKeepsResponsesWellFormed: a state with a response of each status -/
theorem witness_responses : ((midStream.respond (.ok (.hash64 0xf55b516b))).respond .illegal).ResponsesWellFormed := by
  intro r hr
  have ho : ((midStream.respond (.ok (.hash64 0xf55b516b))).respond .illegal).output =
      [.ok (.hash64 0xf55b516b), .illegal] := by decide
  rw [ho] at hr
  simp only [List.mem_cons, List.not_mem_nil, or_false] at hr
  rcases hr with rfl | rfl
  · exact ⟨by decide, Or.inl (by decide)⟩
  · exact ⟨by decide, Or.inr (by decide)⟩
/- CommandsTouchOnlyWhatTheAccessTableLists, its changes: a write that completes no block, at the boundary of 3 bytes; the
empty write of each context; a finish command; each `INIT`; a reset -/
theorem witness_changes : (Instr.m3Write1 1).ctx = .m3 ∧ (Instr.m3Write1 1).fn = .write ∧
    (holding { mixState := 0, processed := 2, carry := .two 1 2 }).m3.carry.len + (Instr.m3Write1 1).bytes.length < 4 ∧
    (Instr.m3Write0).fn = .write ∧ (Instr.m3Write0).bytes = [] ∧ (Instr.fnvWrite0).fn = .write ∧
    (Instr.fnvWrite0).bytes = [] ∧ (Instr.m3Finish).fn = .finish ∧ (Instr.fnvFinish32).fn = .finish32 ∧
    (Instr.fnvInit).ctx = .fnv ∧ (holdingFnv 5).fnvState = some 5 ∧ (about true [.reset]).input = .reset :: [] := by decide
/- the same, its observations: two states that differ in the other context and in the responses, and two that differ in
`processed` alone, and in `mix_state` alone -/
theorem witness_observations : State.reset.m3 = ((holdingFnv 5).respond .illegal).m3 ∧
    State.reset ≠ (holdingFnv 5).respond .illegal ∧
    State.reset.fnvState = (holding { mixState := 9, processed := 1, carry := .one 1 }).fnvState ∧
    (holding { mixState := 9, processed := 1, carry := .one 1 }).m3.carry =
      (holding { mixState := 9, processed := 5, carry := .one 1 }).m3.carry ∧
    (holding { mixState := 9, processed := 1, carry := .one 1 }).m3.carry =
      (holding { mixState := 8, processed := 1, carry := .one 1 }).m3.carry ∧
    (nextOf (exec .m3Write0 State.reset)).isSome = true ∧ (nextOf (exec .fnvWrite0 State.reset)).isSome = true := by decide
/- WritesChangeAndInitsAreIdempotent -/
theorem witness_writesChange : (Instr.m3Write1 0).ctx = .m3 ∧ (Instr.m3Write1 0).fn = .write ∧ (Instr.m3Write1 0).bytes ≠ [] ∧
    (Instr.m3Init).fn = .init ∧ (Instr.fnvInit).fn = .init := by decide
/- DecodeAndEncodeAreInverse, ResponseWordsFollowTheirTable, OpcodeRowsAreTheLegalWords -/
theorem witness_wf : (Instr.m3Write4 0xff 0xff 0xff 0xff).wf false = true ∧ (Instr.fnvFinish).wf true = true ∧
    reading false 0x04ffffffff = .inl (.m3Write4 0xff 0xff 0xff 0xff) := by decide
/- WriteBytesAreTheLanesInOrder: no lane and all four -/
theorem witness_lanes : reading true 0x0000000000 = .inl .m3Write0 ∧ (Instr.m3Write0).fn = .write ∧
    reading true 0x2487654321 = .inl (.fnvWrite4 0x21 0x43 0x65 0x87) ∧
    (Instr.fnvWrite4 0x21 0x43 0x65 0x87).fn = .write := by decide

end Sys2Proof.Tests
end

section
/-! Zero extension and byte order (R14, R16). A block value is built by joining, with OR, one shifted byte at a time
above what is already there; `toNat_or32_shl32_zext32` says once what such a join does to the number. -/

namespace Sys2Proof.Machine

@[simp] theorem toNat_zext32 (b : Byte) : (zext32 b).toNat = b.toNat :=
  BitVec.toNat_setWidth_of_le (by decide)

@[simp] theorem toNat_zext64 (v : Word) : (zext64 v).toNat = v.toNat :=
  BitVec.toNat_setWidth_of_le (by decide)

/-- A byte shifted to a place where it fits in 32 bits loses nothing. -/
theorem toNat_shl32_zext32 (b : Byte) {k : Nat} (hk : k ≤ 24) :
    (shl32 (zext32 b) k).toNat = b.toNat <<< k := by
  have hfits : b.toNat <<< k < 2 ^ 32 :=
    calc b.toNat <<< k = b.toNat * 2 ^ k := Nat.shiftLeft_eq ..
      _ < 2 ^ 8 * 2 ^ k := Nat.mul_lt_mul_of_pos_right b.isLt (Nat.two_pow_pos k)
      _ = 2 ^ (8 + k) := (Nat.pow_add ..).symm
      _ ≤ 2 ^ 32 := Nat.pow_le_pow_right (by decide) (by omega)
  rw [shl32, BitVec.toNat_shiftLeft, toNat_zext32, Nat.mod_eq_of_lt hfits]

/-- The bits of `w` and of the shifted byte do not overlap, so their OR is a sum. -/
theorem toNat_or32_shl32_zext32 (w : Word) (b : Byte) {k : Nat} (hw : w.toNat < 2 ^ k) (hk : k ≤ 24) :
    (or32 w (shl32 (zext32 b) k)).toNat = w.toNat + 2 ^ k * b.toNat := by
  rw [or32, BitVec.toNat_or, toNat_shl32_zext32 b hk, Nat.or_comm, ← Nat.shiftLeft_add_eq_or_of_lt hw,
    Nat.shiftLeft_eq, Nat.mul_comm, Nat.add_comm]

/-- R16. Each byte joins above the ones before it, whose number is below its place. -/
theorem toNat_le32 (b0 b1 b2 b3 : Byte) :
    (le32 b0 b1 b2 b3).toNat = b0.toNat + 256 * b1.toNat + 65536 * b2.toNat + 16777216 * b3.toNat := by
  have h0 := toNat_zext32 b0
  have h1 := toNat_or32_shl32_zext32 (zext32 b0) b1 (k := 8) (by omega) (by decide)
  have h2 := toNat_or32_shl32_zext32 (or32 (zext32 b0) (shl32 (zext32 b1) 8)) b2 (k := 16) (by omega) (by decide)
  have h3 := toNat_or32_shl32_zext32 (or32 (or32 (zext32 b0) (shl32 (zext32 b1) 8)) (shl32 (zext32 b2) 16)) b3
    (k := 24) (by omega) (by decide)
  rw [le32]
  omega

end Sys2Proof.Machine

namespace Sys2Proof.Proofs
open Sys2Proof Sys2Proof.Machine

/-- Settles O2: the wider word holds every bit of the narrower one. -/
theorem zeroExtensionKeepsTheNumber : Obligations.ZeroExtensionKeepsTheNumber :=
  ⟨toNat_zext64, toNat_zext32⟩

/-- Settles O3: the sum by joining the bytes one at a time; the OR is the definition of `le32`. -/
theorem blockValueIsLittleEndian : Obligations.BlockValueIsLittleEndian :=
  ⟨fun b0 b1 b2 b3 => ⟨toNat_le32 b0 b1 b2 b3, rfl⟩, by decide⟩

end Sys2Proof.Proofs
end

section
/-! The reset table (R38): what a constructed context holds, and the four commands that construct or finish one, each
as a whole next state. -/

namespace Sys2Proof.Machine

@[simp] theorem m3Zero_mixState : m3Zero.mixState = 0 := rfl
@[simp] theorem m3Zero_processed : m3Zero.processed = 0 := rfl
@[simp] theorem m3Zero_carry : m3Zero.carry = .zero := rfl

theorem resetWith_true_fnvState : (State.resetWith true).fnvState = some fnvBasis := rfl
theorem resetWith_false_fnvState : (State.resetWith false).fnvState = none := rfl

/-- With nothing pending `TailK` is not mixed in (R132), so the local copy is `mix_state` itself. -/
theorem resolveTail_of_carry_zero {m : M3Context} (h : m.carry = .zero) : resolveTail m = m.mixState := by
  simp [resolveTail, h, Carry.len]

/-- R38's check on MurmurHash3: 0 is a fixed point of the finalization mix. -/
theorem m3Finish32_m3Zero : m3Finish32 m3Zero = 0 := by
  have hfix : fmix (xor32 0 0) = 0 := by decide
  rw [m3Finish32, resolveTail_of_carry_zero m3Zero_carry, m3Zero_mixState, m3Zero_processed, hfix]

section
variable (s : State) {v : Word}

theorem exec_m3Init :
    exec .m3Init s = .next { s with m3 := m3Zero, output := s.output ++ [.ok .none] } :=
  exec_of_m3 rfl s

theorem exec_m3Finish32 :
    exec .m3Finish32 s = .next { s with output := s.output ++ [.ok (.hash32 (m3Finish32 s.m3))] } :=
  exec_of_m3 rfl s

variable {s}

theorem exec_fnvInit_of_some (h : s.fnvState = some v) :
    exec .fnvInit s = .next { s with fnvState := some fnvBasis, output := s.output ++ [.ok .none] } :=
  (exec_of_fnv rfl s).trans (onFnv_of_some h _)

theorem exec_fnvFinish32_of_some (h : s.fnvState = some v) :
    exec .fnvFinish32 s = .next { s with output := s.output ++ [.ok (.hash32 v)] } := by
  rw [exec_of_fnv rfl, onFnv_of_some h]
  simp [fnvEffect, Instr.fn, h]

end

end Sys2Proof.Machine

namespace Sys2Proof.Proofs
open Sys2Proof Sys2Proof.Machine

/-- Settles O39: the table from the reset state and the two `INIT`s, the check from the two finish commands, the refusal
from the step before the first reset. -/
theorem resetStateFollowsTheResetTable : Obligations.ResetStateFollowsTheResetTable := by
  refine ⟨fun _ => ⟨rfl, rfl, rfl⟩, resetWith_true_fnvState, resetWith_false_fnvState, ?m3Init, ?fnvInit,
    ⟨_, exec_m3Finish32 _, ?m3Answer⟩, ⟨_, exec_fnvFinish32_of_some resetWith_true_fnvState, rfl⟩,
    fun _ _ _ hr h => step_of_unreset hr h⟩
  case m3Init => exact fun s => ⟨_, exec_m3Init s, rfl, rfl, rfl⟩
  case fnvInit =>
    intro s hs
    obtain ⟨v, hv⟩ := hasFnv_eq_true.mp hs
    exact ⟨_, exec_fnvInit_of_some hv, rfl⟩
  case m3Answer => simp [m3Finish32_m3Zero]

end Sys2Proof.Proofs
end

section
/-! The word of a command decodes to the command (R77, R82), by the fields that the encoder writes. -/

namespace Sys2Proof

theorem fnCode_eq_zero_iff {fn : Fn} : fnCode fn = 0 ↔ fn = .write := by
  cases fn <;> decide

theorem wf_of_m3 {i : Instr} (h : i.ctx = .m3) (hasFnv : Bool) : i.wf hasFnv = true := by
  simp [Instr.wf, h]

theorem wf_of_hasFnv (i : Instr) : i.wf true = true := by
  cases h : i.ctx <;> simp [Instr.wf, h]

/-- Check 2 of R77 finds nothing in a command that exists under `HAS_FNV`. -/
theorem not_absentExtension_of_wf {hasFnv : Bool} {i : Instr} (h : i.wf hasFnv = true) :
    ¬(i.ctx = .fnv ∧ hasFnv = false) := by
  rintro ⟨hc, hf⟩
  simp [Instr.wf, hc, hf] at h

theorem length_bytes_le (i : Instr) : i.bytes.length ≤ 4 := by
  cases i <;> simp [Instr.bytes]

theorem bytes_of_fn_ne_write {i : Instr} (h : i.fn ≠ .write) : i.bytes = [] := by
  cases i <;> first | rfl | exact absurd rfl h

/-- An absent byte is 0, so at most four bytes are a number below the place of the first absent one. -/
theorem laneSum_lt : ∀ {bs : List Byte}, bs.length ≤ 4 →
    (bs.getD 3 0).toNat * 2 ^ 24 + (bs.getD 2 0).toNat * 2 ^ 16 + (bs.getD 1 0).toNat * 2 ^ 8 + (bs.getD 0 0).toNat <
      2 ^ (8 * bs.length)
  | [], _ => by simp
  | [b0], _ => by have := b0.isLt; simp; omega
  | [b0, b1], _ => by have := b0.isLt; have := b1.isLt; simp; omega
  | [b0, b1, b2], _ => by have := b0.isLt; have := b1.isLt; have := b2.isLt; simp; omega
  | [b0, b1, b2, b3], _ => by have := b0.isLt; have := b1.isLt; have := b2.isLt; have := b3.isLt; simp; omega
  | _ :: _ :: _ :: _ :: _ :: _, h => by simp at h; omega

/-- Check 5 of R77 finds nothing: the lanes at and above `len` are 0. -/
theorem cmdData_encode_shiftRight (i : Instr) : cmdData (encode i) >>> (8 * i.bytes.length) = 0 := by
  apply BitVec.eq_of_toNat_eq
  rw [BitVec.toNat_ushiftRight, Nat.shiftRight_eq_div_pow, encode, cmdData_commandWord_toNat,
    Nat.div_eq_of_lt (laneSum_lt (length_bytes_le i))]
  rfl

theorem zCommand_fnCode {i : Instr} (h : i.fn ≠ .write) : zCommand i.ctx (fnCode i.fn) = i := by
  cases i <;> first | rfl | exact absurd rfl h

theorem writeCommand_bytes {i : Instr} (h : i.fn = .write) :
    writeCommand i.ctx (BitVec.ofNat 3 i.bytes.length)
      (i.bytes.getD 0 0) (i.bytes.getD 1 0) (i.bytes.getD 2 0) (i.bytes.getD 3 0) = i := by
  cases i <;> first | rfl | cases h

/-- Both formats pass the checks of R77: a `WRITE` by its length and its unused lanes, every other function by having no
operand. -/
theorem decode_encode {hasFnv : Bool} {i : Instr} (h : i.wf hasFnv = true) : decode hasFnv (encode i) = .ok i := by
  obtain ⟨hrsv, hctx, hfn, hlen, hl0, hl1, hl2, hl3⟩ := Laws.EncodedFields.of_length_le i (length_bytes_le i)
  have hdata := cmdData_encode_shiftRight i
  rw [decode, if_neg (not_not.mpr hrsv), hctx, ctxOfBit_ctxBit, if_neg (not_absentExtension_of_wf h), hfn]
  by_cases hw : i.fn = .write
  · have hle : ¬cmdLen (encode i) > 4 := by
      have := length_bytes_le i
      simp [BitVec.lt_def, hlen, this]
    have hofNat : cmdLen (encode i) = BitVec.ofNat 3 i.bytes.length := cmdLen_commandWord ..
    rw [if_neg (not_not.mpr (fnCode_eq_zero_iff.mpr hw)), if_neg hle, hlen, if_neg (not_not.mpr hdata),
      hl0, hl1, hl2, hl3, hofNat, writeCommand_bytes hw]
  · have hnone : ¬(cmdLen (encode i) ≠ 0 ∨ cmdData (encode i) ≠ 0) := by
      rw [bytes_of_fn_ne_write hw] at hlen hdata
      rintro (hne | hne)
      · exact hne (BitVec.eq_of_toNat_eq hlen)
      · exact hne hdata
    rw [if_pos (mt fnCode_eq_zero_iff.mp hw), if_neg hnone, zCommand_fnCode hw]

end Sys2Proof
end

section
/-! Any cut of a stream (R67, R164). In either context the `write` of two byte sequences in turn is the `write`
of both joined; a program of `write` beats is then one `write` of all their bytes, by induction over the program. -/

namespace Sys2Proof.Machine

/-- What `M3Write` makes of a context, with R104's three cases as one. -/
theorem m3Write_eq (bs : List Byte) (m : M3Context) :
    m3Write bs m =
      { mixState := (mixAndBuffer m.mixState (m.carry.bytes ++ bs)).1,
        processed := add32 m.processed (BitVec.ofNat 32 bs.length),
        carry := (mixAndBuffer m.mixState (m.carry.bytes ++ bs)).2 } := by
  simp [m3Write, absorb_eq_mixAndBuffer]

@[simp] theorem m3Write_nil (m : M3Context) : m3Write [] m = m := by
  simp [m3Write_eq, mixAndBuffer_carry, add32]

theorem m3Write_append (xs ys : List Byte) (m : M3Context) :
    m3Write (xs ++ ys) m = m3Write ys (m3Write xs m) := by
  have hlength (p : Word) : add32 p (BitVec.ofNat 32 (xs ++ ys).length) =
      add32 (add32 p (BitVec.ofNat 32 xs.length)) (BitVec.ofNat 32 ys.length) := by
    simp only [add32, List.length_append, BitVec.ofNat_add, BitVec.add_assoc]
  simp only [m3Write_eq, hlength, ← List.append_assoc, ← mixAndBuffer_append]

@[simp] theorem fnvWrite_nil (v : Word) : fnvWrite [] v = v := rfl

theorem fnvWrite_append (xs ys : List Byte) (v : Word) : fnvWrite (xs ++ ys) v = fnvWrite ys (fnvWrite xs v) :=
  List.foldl_append

/-- The word of a command that exists under the state's `HAS_FNV` does what the command does. -/
theorem contextsAfter_encode {c : Contexts} {i : Instr} (h : i.wf c.2.isSome = true) :
    contextsAfter c (.command (encode i)) = ((contextsAfterInstr c i).1, [(contextsAfterInstr c i).2]) := by
  simp [contextsAfter, decode_encode h]

theorem contextsAfter_m3Write {i : Instr} (hctx : i.ctx = .m3) (hfn : i.fn = .write) (m : M3Context) (f : Option Word) :
    contextsAfter (m, f) (.command (encode i)) = ((m3Write i.bytes m, f), [.ok .none]) := by
  rw [contextsAfter_encode (wf_of_m3 hctx _)]
  simp [contextsAfterInstr, m3Effect, hctx, hfn]

theorem contextsAfter_fnvWrite {i : Instr} (hctx : i.ctx = .fnv) (hfn : i.fn = .write) (m : M3Context) (v : Word) :
    contextsAfter (m, some v) (.command (encode i)) = ((m, some (fnvWrite i.bytes v)), [.ok .none]) := by
  rw [contextsAfter_encode (c := (m, some v)) (wf_of_hasFnv i)]
  simp [contextsAfterInstr, fnvEffect, hctx, hfn]

@[simp] theorem eventsOf_nil : eventsOf [] = [] := rfl

@[simp] theorem eventsOf_cons (i : Instr) (is : List Instr) :
    eventsOf (i :: is) = .command (encode i) :: eventsOf is := rfl

/-- The induction over a program of beats, once for both contexts: `inContexts x` are the contexts with `x` in the one
that is written, and `write` is that context's own, a single write for any cut of its bytes. -/
theorem contextsAfterAll_writes {α : Type} {inContexts : α → Contexts} {write : List Byte → α → α}
    (hnil : ∀ x, write [] x = x) (happend : ∀ xs ys x, write (xs ++ ys) x = write ys (write xs x)) {is : List Instr}
    (hbeat : ∀ i ∈ is, ∀ x,
      contextsAfter (inContexts x) (.command (encode i)) = (inContexts (write i.bytes x), [.ok .none])) (x : α) :
    contextsAfterAll (inContexts x) (eventsOf is) =
      (inContexts (write (is.flatMap Instr.bytes) x), List.replicate is.length (.ok .none)) := by
  induction is generalizing x with
  | nil => simp [contextsAfterAll, hnil]
  | cons i is ih =>
    obtain ⟨hi, his⟩ := List.forall_mem_cons.mp hbeat
    simp [contextsAfterAll, hi, ih his, happend, List.replicate_succ]

theorem contextsAfterAll_m3Writes {is : List Instr} (h : ∀ i ∈ is, i.ctx = .m3 ∧ i.fn = .write)
    (m : M3Context) (f : Option Word) :
    contextsAfterAll (m, f) (eventsOf is) =
      ((m3Write (is.flatMap Instr.bytes) m, f), List.replicate is.length (.ok .none)) :=
  contextsAfterAll_writes (inContexts := fun m => (m, f)) m3Write_nil m3Write_append
    (fun i hi m => contextsAfter_m3Write (h i hi).1 (h i hi).2 m f) m

theorem contextsAfterAll_fnvWrites {is : List Instr} (h : ∀ i ∈ is, i.ctx = .fnv ∧ i.fn = .write)
    (m : M3Context) (v : Word) :
    contextsAfterAll (m, some v) (eventsOf is) =
      ((m, some (fnvWrite (is.flatMap Instr.bytes) v)), List.replicate is.length (.ok .none)) :=
  contextsAfterAll_writes (inContexts := fun v => (m, some v)) fnvWrite_nil fnvWrite_append
    (fun i hi v => contextsAfter_fnvWrite (h i hi).1 (h i hi).2 m v) v

end Sys2Proof.Machine

namespace Sys2Proof.Proofs
open Sys2Proof Sys2Proof.Machine

/-- Settles O24: the run is the fold of the beats over the contexts, and that fold is one `write` of all the bytes. -/
theorem anyCutIntoBeatsIsTheSame : Obligations.AnyCutIntoBeatsIsTheSame := by
  refine ⟨fun s is hr h => ?m3, fun s v is hr hv h => ?fnv⟩
  case m3 =>
    rw [runProgram, runEvents_eq_contexts _ hr, State.contexts, contextsAfterAll_m3Writes h, hr]
  case fnv =>
    rw [runProgram, runEvents_eq_contexts _ hr, State.contexts, hv, contextsAfterAll_fnvWrites h, hr]

end Sys2Proof.Proofs
end

section
/-! One response for each command word (R80). -/

namespace Sys2Proof.Machine

/-- A word is answered once whether it decodes or not. -/
theorem length_responses_command (c : Contexts) (w : CmdWord) : (contextsAfter c (.command w)).2.length = 1 := by
  cases hd : decode c.2.isSome w <;> simp [contextsAfter, hd]

theorem length_responses_commands (c : Contexts) (ws : List CmdWord) :
    (contextsAfterAll c (ws.map .command)).2.length = ws.length := by
  induction ws generalizing c with
  | nil => rfl
  | cons w ws ih => simp [contextsAfterAll, length_responses_command, ih, Nat.add_comm]

end Sys2Proof.Machine

namespace Sys2Proof.Proofs
open Sys2Proof Sys2Proof.Machine

/-- Settles O36: the run is a fold over the contexts, and each word adds one response to it. -/
theorem oneResponseForEachCommand : Obligations.OneResponseForEachCommand :=
  fun s ws hr => ⟨_, _, runEvents_eq_contexts _ hr, length_responses_commands s.contexts ws, rfl, rfl, rfl⟩

end Sys2Proof.Proofs
end

section
/-! The decoder by the numbers of a word's fields (R75, R77, R82, R84). `decode_eq_ok_iff` says once which words are
legal and what they spell. -/

namespace Sys2Proof

/-- R82: the encoder concatenates the fields, and a concatenation is a sum. -/
theorem encode_toNat (i : Instr) :
    (encode i).toNat = (ctxBit i.ctx).toNat * 2 ^ 37 + (fnCode i.fn).toNat * 2 ^ 35 + i.bytes.length * 2 ^ 32 +
      (i.bytes.getD 0 0).toNat + (i.bytes.getD 1 0).toNat * 2 ^ 8 + (i.bytes.getD 2 0).toNat * 2 ^ 16 +
      (i.bytes.getD 3 0).toNat * 2 ^ 24 := by
  have hlen : i.bytes.length < 2 ^ 3 := (length_bytes_le i).trans_lt (by decide)
  rw [encode, commandWord_toNat, BitVec.toNat_ofNat, Nat.mod_eq_of_lt hlen]
  omega

theorem ctxOfBit_eq_fnv_iff {b : BitVec 1} : ctxOfBit b = .fnv ↔ b.toNat = 1 := by
  revert b; decide

/-- R77: the words that pass the five checks, and the command of each. -/
theorem decode_eq_ok_iff {hasFnv : Bool} {w : CmdWord} {i : Instr} :
    decode hasFnv w = .ok i ↔
      cmdRsv w = 0 ∧ ¬(ctxOfBit (cmdCtx w) = .fnv ∧ hasFnv = false) ∧
      ((cmdFn w ≠ 0 ∧ (cmdLen w = 0 ∧ cmdData w = 0) ∧ zCommand (ctxOfBit (cmdCtx w)) (cmdFn w) = i) ∨
       (cmdFn w = 0 ∧ cmdLen w ≤ 4 ∧ cmdData w >>> (8 * (cmdLen w).toNat) = 0 ∧
        writeCommand (ctxOfBit (cmdCtx w)) (cmdLen w)
          (cmdLane w 0) (cmdLane w 1) (cmdLane w 2) (cmdLane w 3) = i)) := by
  unfold decode
  by_cases hrsv : cmdRsv w = 0#2
  case neg => simp [hrsv]
  by_cases habsent : ctxOfBit (cmdCtx w) = .fnv ∧ hasFnv = false
  case pos => simp [hrsv, habsent]
  by_cases hfn : cmdFn w = 0#2
  case neg =>
    by_cases hz : cmdLen w = 0#3 ∧ cmdData w = 0#32
    · simp [hrsv, habsent, hfn, hz]
    · have hz' : ¬cmdLen w = 0#3 ∨ ¬cmdData w = 0#32 := not_and_or.mp hz
      simp [hrsv, habsent, hfn, hz, hz']
  case pos =>
    by_cases hlen : 4#3 < cmdLen w
    · simp [hrsv, habsent, hfn, hlen, ← BitVec.not_lt]
    · by_cases hdata : cmdData w >>> (8 * (cmdLen w).toNat) = 0#32
      · simp [hrsv, habsent, hfn, hlen, hdata, ← BitVec.not_lt]
      · simp [hrsv, habsent, hfn, hlen, hdata]

theorem decode_error_iff_not_ok {hasFnv : Bool} {w : CmdWord} :
    (∃ e, decode hasFnv w = .error e) ↔ ¬∃ i, decode hasFnv w = .ok i := by
  cases decode hasFnv w <;> simp

/-- A number of at most four bytes reaches above its lowest `n` if and only if one of the bytes `n` to 3 is not zero:
its top byte is such a one. -/
theorem div_ne_zero_iff_exists_byte {d n : Nat} (hd : d < 2 ^ 32) :
    d / 2 ^ (8 * n) ≠ 0 ↔ ∃ i, n ≤ i ∧ i ≤ 3 ∧ d / 2 ^ (8 * i) % 256 ≠ 0 := by
  constructor
  · intro h
    have hle : 256 ^ n ≤ d := by
      rw [pow_mul] at h
      exact Nat.le_of_not_lt (mt Nat.div_eq_of_lt h)
    have hd0 : d ≠ 0 := ((Nat.pow_pos (by decide)).trans_le hle).ne'
    refine ⟨Nat.log 256 d, Nat.le_log_of_pow_le (by decide) hle, ?_, ?_⟩
    · exact Nat.le_of_lt_succ (Nat.log_lt_of_lt_pow hd0 hd)
    · have htop : d / 256 ^ Nat.log 256 d < 256 :=
        Nat.div_lt_of_lt_mul (Nat.lt_pow_succ_log_self (b := 256) (by decide) d)
      rw [pow_mul, show 2 ^ 8 = 256 from rfl, Nat.mod_eq_of_lt htop]
      exact (Nat.div_pos (Nat.pow_log_le_self 256 hd0) (by positivity)).ne'
  · rintro ⟨i, hni, -, hi⟩ h
    have hle : d / 2 ^ (8 * i) ≤ d / 2 ^ (8 * n) :=
      Nat.div_le_div_left (Nat.pow_le_pow_right (by decide) (by omega)) (by positivity)
    rw [h, Nat.le_zero] at hle
    exact hi (by rw [hle])

/-- The five checks of R77 over the number of the word: the words that are legal. -/
theorem exists_decode_eq_ok_iff (hasFnv : Bool) (w : CmdWord) :
    (∃ i, decode hasFnv w = .ok i) ↔
      w.toNat / 2 ^ 38 = 0 ∧ ¬(w.toNat / 2 ^ 37 % 2 = 1 ∧ hasFnv = false) ∧
      ((w.toNat / 2 ^ 35 % 4 ≠ 0 ∧ w.toNat / 2 ^ 32 % 8 = 0 ∧ w.toNat % 2 ^ 32 = 0) ∨
       (w.toNat / 2 ^ 35 % 4 = 0 ∧ w.toNat / 2 ^ 32 % 8 ≤ 4 ∧
        w.toNat % 2 ^ 32 / 2 ^ (8 * (w.toNat / 2 ^ 32 % 8)) = 0)) := by
  have hzero {n : Nat} (x : BitVec n) : x = 0 ↔ x.toNat = 0 := BitVec.toNat_eq
  have hle : cmdLen w ≤ 4 ↔ (cmdLen w).toNat ≤ 4 := BitVec.le_def
  simp only [decode_eq_ok_iff, exists_and_left, exists_or, exists_eq', and_true, ne_eq, hzero, hle,
    ctxOfBit_eq_fnv_iff, BitVec.toNat_ushiftRight, Nat.shiftRight_eq_div_pow, cmdRsv_toNat, cmdCtx_toNat, cmdFn_toNat,
    cmdLen_toNat, cmdData_toNat]

theorem zCommand_fn_ne_write (c : Ctx) (fn : BitVec 2) : (zCommand c fn).fn ≠ .write := by
  cases c <;> simp only [zCommand] <;> split_ifs <;> simp [Instr.fn]

theorem bytes_writeCommand (c : Ctx) {len : BitVec 3} (h : len ≤ 4) (l0 l1 l2 l3 : Byte) :
    (writeCommand c len l0 l1 l2 l3).bytes = [l0, l1, l2, l3].take len.toNat := by
  have hlen : len = 0 ∨ len = 1 ∨ len = 2 ∨ len = 3 ∨ len = 4 := by revert len; decide
  rcases hlen with rfl | rfl | rfl | rfl | rfl <;> cases c <;> rfl

/-- R75: a word that spells a `WRITE` has the bytes of its first `len` lanes. -/
theorem bytes_of_decode_write {hasFnv : Bool} {w : CmdWord} {i : Instr} (hd : decode hasFnv w = .ok i)
    (hw : i.fn = .write) :
    cmdLen w ≤ 4 ∧ i.bytes = (List.range (cmdLen w).toNat).map (cmdLane w) := by
  obtain ⟨-, -, ⟨-, -, rfl⟩ | ⟨-, hle, -, rfl⟩⟩ := decode_eq_ok_iff.mp hd
  · exact absurd hw (zCommand_fn_ne_write _ _)
  · have hlanes : [cmdLane w 0, cmdLane w 1, cmdLane w 2, cmdLane w 3] = (List.range 4).map (cmdLane w) := rfl
    refine ⟨hle, ?_⟩
    rw [bytes_writeCommand _ hle, hlanes, ← List.map_take, List.take_range,
      min_eq_left (b := 4) (BitVec.le_def.mp hle)]

end Sys2Proof

namespace Sys2Proof.Proofs
open Sys2Proof Sys2Proof.Machine

/-- Settles O48: the sum by the fields of the word, with the codes of each context and function. -/
theorem wordIsTheSumOfItsFields : Obligations.WordIsTheSumOfItsFields := by
  refine ⟨fun i => ?_, by decide, by decide, by decide⟩
  rw [encode_toNat]
  cases i.ctx <;> cases i.fn <;> rfl

/-- Settles O49: the decoder refuses what is not legal, and the unused lanes are not all 0 if and only if the data
reaches above the used ones. -/
theorem illegalWordsAreTheFiveConditions : Obligations.IllegalWordsAreTheFiveConditions := by
  intro hasFnv w rsv ctx fn len data
  refine ⟨?conditions, ?answer⟩
  case answer =>
    rintro s rest e hr rfl hin hd
    exact step_of_illegal hr hin hd
  case conditions =>
    have hlanes : data / 2 ^ (8 * len) ≠ 0 ↔ ∃ i, len ≤ i ∧ i ≤ 3 ∧ data / 2 ^ (8 * i) % 256 ≠ 0 :=
      div_ne_zero_iff_exists_byte (Nat.mod_lt _ (by decide))
    have hlen : data / 2 ^ (8 * len) ≠ 0 → len ≤ 3 := fun h =>
      let ⟨_, hle, hle3, _⟩ := hlanes.mp h
      hle.trans hle3
    have hle : len ≤ 4 ↔ ¬5 ≤ len := by omega
    rw [decode_error_iff_not_ok, exists_decode_eq_ok_iff, ← hlanes]
    change ¬(rsv = 0 ∧ ¬(ctx = 1 ∧ hasFnv = false) ∧
      ((fn ≠ 0 ∧ len = 0 ∧ data = 0) ∨ (fn = 0 ∧ len ≤ 4 ∧ data / 2 ^ (8 * len) = 0))) ↔ _
    tauto

/-- Settles O51: the `WRITE`s of the decoder take the first `len` lanes of the word. -/
theorem writeBytesAreTheLanesInOrder : Obligations.WriteBytesAreTheLanesInOrder := by
  intro hasFnv w i hd hw
  obtain ⟨hle, hbytes⟩ := bytes_of_decode_write hd hw
  have hlane (j : Nat) : cmdLane w j = BitVec.ofNat 8 (w.toNat / 2 ^ (8 * j) % 256) := by
    rw [← cmdLane_toNat, BitVec.ofNat_toNat, BitVec.setWidth_eq]
  rw [← cmdLen_toNat, hbytes]
  exact ⟨BitVec.le_def.mp hle, List.map_congr_left fun j _ => hlane j⟩

end Sys2Proof.Proofs
end

section
/-! The response word (R78, R79): two fields, of which `rdata` is the number of a u32 in every response. -/

namespace Sys2Proof.Machine

theorem status_toNat_le (r : Response) : r.status.toNat ≤ 1 := by
  cases r <;> simp [Response.status]

theorem word_toNat (r : Response) : r.word.toNat = r.status.toNat * 2 ^ 64 + r.rdata.toNat :=
  toNat_append_eq_add _ _

theorem word_ok_toNat (r : Result) : (Response.ok r).word.toNat = r.rdata.toNat := by
  simp [word_toNat, Response.status, Response.rdata]

/-- What a command with the function `fn` answers, if the hash of its context is `hash` (R79). -/
def resultOf (fn : Fn) (hash : Word) : Result :=
  match fn with
  | .write => .none
  | .finish32 => .hash32 hash
  | .finish => .hash64 (zext64 hash)
  | .init => .none

theorem m3Effect_result (i : Instr) (m : M3Context) : (m3Effect i m).2 = resultOf i.fn (m3Finish32 m) := by
  unfold m3Effect
  cases i.fn <;> rfl

theorem fnvEffect_result (i : Instr) (v : Word) : (fnvEffect i v).2 = resultOf i.fn v := by
  unfold fnvEffect
  cases i.fn <;> rfl

/-- A command that exists is answered with the result of its function on the hash of its own context. -/
theorem exec_answers_resultOf {i : Instr} {s : State} (h : i.wf s.hasFnv = true) :
    ∃ (t : State) (hash : Word), exec i s = .next t ∧ t.output = s.output ++ [.ok (resultOf i.fn hash)] ∧
      (i.ctx = .m3 → hash = m3Finish32 s.m3) ∧ (∀ v, s.fnvState = some v → i.ctx = .fnv → hash = v) := by
  cases hc : i.ctx with
  | m3 =>
    refine ⟨_, m3Finish32 s.m3, exec_of_m3 hc s, ?_, fun _ => rfl, nofun⟩
    simp [m3Effect_result]
  | fnv =>
    obtain ⟨v, hv⟩ : ∃ v, s.fnvState = some v := hasFnv_eq_true.mp (by simpa [Instr.wf, hc] using h)
    refine ⟨_, v, (exec_of_fnv hc s).trans (onFnv_of_some hv _), ?_, nofun, ?_⟩
    · simp [fnvEffect_result]
    · intro v' hv' _
      exact Option.some.inj (hv.symm.trans hv')

section
variable (fn : Fn) (hash : Word)

theorem word_resultOf_lt : (Response.ok (resultOf fn hash)).word.toNat < 2 ^ 32 := by
  rw [word_ok_toNat]
  cases fn <;> simp [resultOf, Result.rdata, hash.isLt]

variable {fn}

theorem word_resultOf_of_no_hash (h : fn = .init ∨ fn = .write) : (Response.ok (resultOf fn hash)).word = 0 := by
  apply BitVec.eq_of_toNat_eq
  rw [word_ok_toNat]
  rcases h with rfl | rfl <;> rfl

theorem word_resultOf_of_hash (h : fn = .finish32 ∨ fn = .finish) :
    (Response.ok (resultOf fn hash)).word.toNat = hash.toNat := by
  rw [word_ok_toNat]
  rcases h with rfl | rfl <;> exact toNat_zext64 hash

end

end Sys2Proof.Machine

namespace Sys2Proof.Proofs
open Sys2Proof Sys2Proof.Machine

/-- Settles O53: the fields by concatenation, the illegal word by its step, a command by the result of its function. -/
theorem responseWordsFollowTheirTable : Obligations.ResponseWordsFollowTheirTable := by
  refine ⟨fun r => ⟨word_toNat r, status_toNat_le r⟩, ?illegal, ?command⟩
  case illegal =>
    intro s w rest e hr hin hd
    exact ⟨_, .illegal, step_of_illegal hr hin hd, rfl, rfl, rfl, rfl⟩
  case command =>
    intro i s hwf
    obtain ⟨t, hash, hexec, hout, hm3, hfnv⟩ := exec_answers_resultOf hwf
    refine ⟨t, _, hexec, hout, Nat.div_eq_of_lt (word_resultOf_lt i.fn hash), word_resultOf_of_no_hash hash, ?_, ?_⟩
    · intro hc hfn
      rw [word_resultOf_of_hash hash hfn, hm3 hc]
    · intro v hv hc hfn
      rw [word_resultOf_of_hash hash hfn, hfnv v hv hc]

end Sys2Proof.Proofs
end

section
/-! The two mixing functions of `write` (R100, R101), each as its lines with the literals of R8. -/

namespace Sys2Proof.Machine

theorem kMix_eq (k : Word) : kMix k = mul32 (rotl32 (mul32 k 0xcc9e2d51) 15) 0x1b873593 := rfl

theorem blockMix_eq (h k : Word) :
    blockMix h k = add32 (mul32 (rotl32 (xor32 h (kMix k)) 13) 5) 0xe6546b64 := rfl

/-- R101 step 6: the product may wrap before the sum does, or both once at the end. -/
theorem toNat_add32_mul32 (a b c : Word) :
    (add32 (mul32 a b) c).toNat = (a.toNat * b.toNat + c.toNat) % 2 ^ 32 := by
  rw [add32, mul32, BitVec.toNat_add, BitVec.toNat_mul, Nat.mod_add_mod]

end Sys2Proof.Machine

namespace Sys2Proof.Proofs
open Sys2Proof Sys2Proof.Machine

/-- Settles O5: the lines are the definition's; the corner cases and the example are evaluated. -/
theorem kMixIsStepsOneToThree : Obligations.KMixIsStepsOneToThree := by
  refine ⟨?lines, by decide, by decide, by decide, by decide, by decide, by decide⟩
  case lines =>
    rintro k _ _ rfl rfl
    exact kMix_eq k

/-- Settles O6: the lines are the definition's, and step 6 may wrap once at the end; the corner cases and the example are
evaluated. -/
theorem blockMixIsStepsOneToSix : Obligations.BlockMixIsStepsOneToSix := by
  refine ⟨?lines, by decide, by decide, by decide, by decide, by decide, by decide⟩
  case lines =>
    rintro h k _ _ rfl rfl
    refine ⟨blockMix_eq h k, ?_⟩
    rw [blockMix_eq, toNat_add32_mul32]
    rfl

end Sys2Proof.Proofs
end

section
/-! `M3Write` of any length by the cases of R104 to R107. The blocks and the remainder of a byte sequence are given by
its length and its positions, and each case is `mixAndBuffer` of the pending bytes and the new ones. -/

namespace Sys2Proof.Machine

theorem blockAt_zero (b0 b1 b2 b3 : Byte) (rest : List Byte) :
    blockAt (b0 :: b1 :: b2 :: b3 :: rest) 0 = le32 b0 b1 b2 b3 := rfl

theorem blockAt_succ (b0 b1 b2 b3 : Byte) (rest : List Byte) (i : Nat) :
    blockAt (b0 :: b1 :: b2 :: b3 :: rest) (i + 1) = blockAt rest i := rfl

theorem map_blockValue_blocksOf (bs : List Byte) :
    (blocksOf bs).map blockValue = (List.range (bs.length / 4)).map (blockAt bs) := by
  induction bs using blocks_induction with
  | carry c =>
    have hnone : c.len / 4 = 0 := Nat.div_eq_of_lt (Nat.lt_succ_of_le (carry_len_le c))
    simp [hnone]
  | block b0 b1 b2 b3 rest ih =>
    have hcount : (b0 :: b1 :: b2 :: b3 :: rest).length / 4 = rest.length / 4 + 1 := by
      simp only [List.length_cons]; omega
    rw [hcount, List.range_succ_eq_map]
    simp [ih, blockValue, blockAt_zero, blockAt_succ]

/-- R105: the full chunks are mixed in ascending order. -/
theorem mixAndBuffer_mixState (h : Word) (bs : List Byte) :
    (mixAndBuffer h bs).1 = (List.range (bs.length / 4)).foldl (fun h i => blockMix h (blockAt bs i)) h := by
  rw [← List.foldl_map (f := blockAt bs) (g := blockMix), ← map_blockValue_blocksOf, List.foldl_map, mixAndBuffer]

/-- R105: the bytes behind the last full chunk are buffered. -/
theorem mixAndBuffer_bytes (h : Word) (bs : List Byte) :
    (mixAndBuffer h bs).2.bytes = bs.drop (4 * (bs.length / 4)) :=
  remainderOf_bytes_eq_drop bs

/-- Four bytes in front are the first block mixed. -/
theorem mixAndBuffer_append_of_length_eq_four (h : Word) {xs : List Byte} (hxs : xs.length = 4) (ys : List Byte) :
    mixAndBuffer h (xs ++ ys) = mixAndBuffer (blockMix h (blockAt xs 0)) ys := by
  obtain ⟨b0, b1, b2, b3, rfl⟩ := List.length_eq_four.mp hxs
  exact mixAndBuffer_block h b0 b1 b2 b3 ys

/-- R107: too few bytes for a block are buffered and nothing is mixed. -/
theorem mixAndBuffer_of_length_lt (h : Word) {bs : List Byte} (hlt : bs.length < 4) :
    (mixAndBuffer h bs).1 = h ∧ (mixAndBuffer h bs).2.bytes = bs := by
  simp [mixAndBuffer_mixState, mixAndBuffer_bytes, Nat.div_eq_of_lt hlt]

theorem carry_eq_zero_of_len {c : Carry} (h : c.len = 0) : c = .zero := by
  cases c <;> first | rfl | cases h

section
variable (bs : List Byte) {m : M3Context}

theorem m3Write_processed_toNat (m : M3Context) :
    (m3Write bs m).processed.toNat = (m.processed.toNat + bs.length) % 2 ^ 32 := by
  rw [m3Write_eq, add32, BitVec.toNat_add, BitVec.toNat_ofNat, Nat.add_mod_mod]

/-- R105: with nothing pending the write is `mixAndBuffer` of its bytes. -/
theorem m3Write_of_nothing_pending (h : m.carry.len = 0) :
    (m3Write bs m).mixState = (mixAndBuffer m.mixState bs).1 ∧ (m3Write bs m).carry = (mixAndBuffer m.mixState bs).2 := by
  rw [m3Write_eq, carry_eq_zero_of_len h]
  exact ⟨rfl, rfl⟩

variable {bs}

/-- R106: the completed block is the pending bytes and the front of the new ones. -/
theorem m3Write_of_completed (h : m.carry.len + bs.length ≥ 4) :
    let k := blockAt (m.carry.bytes ++ bs.take (4 - m.carry.len)) 0
    let rest := m3Write (bs.drop (4 - m.carry.len)) { m with mixState := blockMix m.mixState k, carry := .zero }
    (m3Write bs m).mixState = rest.mixState ∧ (m3Write bs m).carry = rest.carry := by
  intro k rest
  have hblock : (m.carry.bytes ++ bs.take (4 - m.carry.len)).length = 4 := by
    have := carry_len_le m.carry
    rw [List.length_append, List.length_take, carry_length_bytes]
    omega
  have hmix : mixAndBuffer m.mixState (m.carry.bytes ++ bs) =
      mixAndBuffer (blockMix m.mixState k) (bs.drop (4 - m.carry.len)) := by
    rw [← mixAndBuffer_append_of_length_eq_four _ hblock, List.append_assoc, List.take_append_drop]
  obtain ⟨hstate, hcarry⟩ := m3Write_of_nothing_pending (bs.drop (4 - m.carry.len))
    (m := { m with mixState := blockMix m.mixState k, carry := .zero }) rfl
  rw [hstate, hcarry, m3Write_eq, hmix]
  exact ⟨rfl, rfl⟩

/-- R107: the bytes are put behind the pending ones. -/
theorem m3Write_of_incomplete (h : m.carry.len + bs.length < 4) :
    (m3Write bs m).mixState = m.mixState ∧ (m3Write bs m).carry.bytes = m.carry.bytes ++ bs := by
  rw [m3Write_eq]
  exact mixAndBuffer_of_length_lt _ (by simpa using h)

end

end Sys2Proof.Machine

namespace Sys2Proof.Proofs
open Sys2Proof Sys2Proof.Machine

/-- Settles O11: the count is one sum, and each case is `mixAndBuffer` of the pending bytes and the new ones. -/
theorem m3WriteFollowsItsThreeCases : Obligations.M3WriteFollowsItsThreeCases := by
  refine ⟨fun m bs => ⟨m3Write_processed_toNat bs m, ?nothingPending, fun _ => m3Write_of_completed, ?incomplete⟩,
    by decide, by decide, by decide⟩
  case nothingPending =>
    intro hc
    obtain ⟨hstate, hcarry⟩ := m3Write_of_nothing_pending bs hc
    rw [hstate, hcarry]
    exact ⟨mixAndBuffer_mixState .., mixAndBuffer_len .., mixAndBuffer_bytes ..⟩
  case incomplete =>
    intro _ hlt
    obtain ⟨hstate, hbytes⟩ := m3Write_of_incomplete hlt
    refine ⟨hstate, ?_, hbytes⟩
    rw [← carry_length_bytes, hbytes, List.length_append, carry_length_bytes]

end Sys2Proof.Proofs
end

section
/-! The commands `M3.INIT` and `M3.WRITE` (R103, R108, R110, R111): a beat is `M3Write` of its bytes in every state, so
what it does follows from `M3Write` alone. -/

namespace Sys2Proof

/-- An absent byte is 0, so the sum over a beat's own bytes is the sum of all four lanes. -/
theorem sum_lanes : ∀ {bs : List Byte}, bs.length ≤ 4 →
    ((List.range bs.length).map (fun j => (bs.getD j 0).toNat * 2 ^ (8 * j))).sum =
      (bs.getD 0 0).toNat + (bs.getD 1 0).toNat * 2 ^ 8 + (bs.getD 2 0).toNat * 2 ^ 16 +
      (bs.getD 3 0).toNat * 2 ^ 24
  | [], _ => by simp
  | [_], _ => by simp
  | [_, _], _ => by simp [List.sum_range_succ]
  | [_, _, _], _ => by simp [List.sum_range_succ]
  | [_, _, _, _], _ => by simp [List.sum_range_succ]
  | _ :: _ :: _ :: _ :: _ :: _, h => by simp at h; omega

/-- R108: the number of a beat's word. -/
theorem encode_m3Write_toNat {i : Instr} (hctx : i.ctx = .m3) (hfn : i.fn = .write) :
    (encode i).toNat = i.bytes.length * 2 ^ 32 +
      ((List.range i.bytes.length).map (fun j => (i.bytes.getD j 0).toNat * 2 ^ (8 * j))).sum := by
  have hctxBit : (ctxBit .m3).toNat = 0 := rfl
  have hfnCode : (fnCode .write).toNat = 0 := rfl
  rw [sum_lanes (length_bytes_le i), encode_toNat, hctx, hfn, hctxBit, hfnCode]
  omega

end Sys2Proof

namespace Sys2Proof.Machine

/-- R108: a beat of any of the five forms, as the whole next state. -/
theorem exec_m3Write {i : Instr} (hctx : i.ctx = .m3) (hfn : i.fn = .write) (s : State) :
    exec i s = .next { s with m3 := m3Write i.bytes s.m3, output := s.output ++ [.ok .none] } := by
  rw [exec_of_m3 hctx, onM3_eq]
  simp [m3Effect, hfn]

/-- R111: a write that takes the count past `2^32` takes it there once. -/
theorem m3Write_processed_toNat_of_wrap {m : M3Context} {bs : List Byte} (hlen : bs.length < 2 ^ 32)
    (hwrap : m.processed.toNat + bs.length ≥ 2 ^ 32) :
    (m3Write bs m).processed.toNat = m.processed.toNat + bs.length - 2 ^ 32 := by
  have hp := m.processed.isLt
  rw [m3Write_processed_toNat, Nat.mod_eq_sub_mod hwrap, Nat.mod_eq_of_lt (by omega)]

end Sys2Proof.Machine

namespace Sys2Proof.Proofs
open Sys2Proof Sys2Proof.Machine

/-- Settles O12: `M3Write` of no byte is the identity, and a program of empty beats is one `M3Write` of no byte. -/
theorem emptyWriteChangesNothing : Obligations.EmptyWriteChangesNothing := by
  refine ⟨fun s => ?once, by decide, fun hasFnv n => ?program⟩
  case once =>
    rw [exec_m3Write rfl rfl]
    simp [Instr.bytes]
  case program =>
    have hbeats : ∀ i ∈ List.replicate n Instr.m3Write0, i.ctx = .m3 ∧ i.fn = .write := by
      intro i hi
      rw [List.eq_of_mem_replicate hi]
      exact ⟨rfl, rfl⟩
    have hbytes : (List.replicate n Instr.m3Write0).flatMap Instr.bytes = [] :=
      List.flatMap_eq_nil_iff.mpr fun i hi => by rw [List.eq_of_mem_replicate hi]; rfl
    rw [anyCutIntoBeatsIsTheSame.1 _ _ (resetWith_wasReset hasFnv) hbeats, hbytes, m3Write_nil, List.length_replicate]
    rfl

/-- Settles O8: the constructed context is the zero state, whose hash is R38's check. -/
theorem m3InitConstructsTheZeroState : Obligations.M3InitConstructsTheZeroState :=
  ⟨exec_m3Init, by decide, m3Finish32_m3Zero⟩

/-- Settles O10: the beat as a whole next state, and the sum of its word's fields. -/
theorem m3WriteCommandIsM3WriteOfItsBytes : Obligations.M3WriteCommandIsM3WriteOfItsBytes :=
  ⟨fun s _ hctx hfn => ⟨exec_m3Write hctx hfn s, encode_m3Write_toNat hctx hfn⟩, by decide, by decide⟩

/-- Settles O13: the sum modulo `2^32` wraps once, and `M3Write` reads the count for nothing else. -/
theorem processedWrapsSilently : Obligations.ProcessedWrapsSilently := by
  refine ⟨fun _ _ => m3Write_processed_toNat_of_wrap, ?beat, ?unread, by decide⟩
  case beat =>
    intro s i hctx hfn hwrap
    have hlen : i.bytes.length < 2 ^ 32 := (length_bytes_le i).trans_lt (by decide)
    exact ⟨_, exec_m3Write hctx hfn s, rfl, m3Write_processed_toNat_of_wrap hlen hwrap⟩
  case unread =>
    intro m p bs
    simp only [m3Write_eq, and_self]

end Sys2Proof.Proofs
end

section
/-! The tail value (R131, R51). One more pending byte is one more XOR, at a place above the bytes already there, where XOR
and OR are the same; the form and the bound for each pending length follow from that. -/

namespace Sys2Proof.Machine

/-- The loop of R131 as a fold over the positions. -/
theorem tailLoop_eq_foldl (k : Word) (i : Nat) (bs : List Byte) :
    tailLoop k i bs =
      (List.range bs.length).foldl (fun k j => xor32 k (shl32 (zext32 (bs.getD j 0)) (8 * (i + j)))) k := by
  induction bs generalizing k i with
  | nil => rfl
  | cons b bs ih =>
    have hnext (j : Nat) : i + 1 + j = i + (j + 1) := by omega
    rw [tailLoop, ih, List.length_cons, List.range_succ_eq_map]
    simp [List.foldl_map, hnext]

theorem tailK_eq_foldl (bs : List Byte) :
    tailK bs = (List.range bs.length).foldl (fun k i => xor32 k (shl32 (zext32 (bs.getD i 0)) (8 * i))) 0 := by
  simp [tailK, tailLoop_eq_foldl]

theorem tailLoop_append (k : Word) (i : Nat) (xs ys : List Byte) :
    tailLoop k i (xs ++ ys) = tailLoop (tailLoop k i xs) (i + xs.length) ys := by
  induction xs generalizing k i with
  | nil => rfl
  | cons x xs ih => simp [tailLoop, ih, Nat.add_assoc, Nat.add_comm 1]

/-- The bits of `w` and of the shifted byte do not overlap, so their XOR is their OR. -/
theorem xor32_shl32_zext32_eq_or32 {w : Word} (b : Byte) {k : Nat} (hw : w.toNat < 2 ^ k) :
    xor32 w (shl32 (zext32 b) k) = or32 w (shl32 (zext32 b) k) := by
  apply BitVec.eq_of_getLsbD_eq
  intro i _
  by_cases hi : i < k
  · have hbyte : (shl32 (zext32 b) k).getLsbD i = false := by simp [shl32, hi]
    simp [xor32, or32, hbyte]
  · have hpending : w.getLsbD i = false :=
      Nat.testBit_eq_false_of_lt (hw.trans_le (Nat.pow_le_pow_right (by decide) (Nat.le_of_not_lt hi)))
    simp [xor32, or32, hpending]

theorem tailK_concat_xor (bs : List Byte) (b : Byte) :
    tailK (bs ++ [b]) = xor32 (tailK bs) (shl32 (zext32 b) (8 * bs.length)) := by
  simp [tailK, tailLoop_append, tailLoop]

/-- The bits of the tail value above its bytes are zero. -/
theorem tailK_toNat_lt {bs : List Byte} (hlen : bs.length ≤ 4) : (tailK bs).toNat < 2 ^ (8 * bs.length) := by
  induction bs using List.reverseRecOn with
  | nil => decide
  | append_singleton bs b ih =>
    rw [List.length_append, List.length_singleton] at hlen ⊢
    have hbs : (tailK bs).toNat < 2 ^ (8 * bs.length) := ih (by omega)
    rw [tailK_concat_xor, xor32_shl32_zext32_eq_or32 b hbs, toNat_or32_shl32_zext32 _ b hbs (by omega)]
    calc (tailK bs).toNat + 2 ^ (8 * bs.length) * b.toNat
        < 2 ^ (8 * bs.length) + 2 ^ (8 * bs.length) * b.toNat := Nat.add_lt_add_right hbs _
      _ = 2 ^ (8 * bs.length) * (b.toNat + 1) := by ring
      _ ≤ 2 ^ (8 * bs.length) * 2 ^ 8 := Nat.mul_le_mul_left _ b.isLt
      _ = 2 ^ (8 * (bs.length + 1)) := (Nat.pow_add ..).symm

/-- One more pending byte joins above the others. -/
theorem tailK_concat {bs : List Byte} (hlen : bs.length ≤ 4) (b : Byte) :
    tailK (bs ++ [b]) = or32 (tailK bs) (shl32 (zext32 b) (8 * bs.length)) := by
  rw [tailK_concat_xor, xor32_shl32_zext32_eq_or32 b (tailK_toNat_lt hlen)]

section
variable (a0 a1 a2 : Byte)

theorem tailK_one : tailK (Carry.one a0).bytes = zext32 a0 := by
  simp [Carry.bytes, tailK, tailLoop, xor32, shl32]

theorem tailK_two : tailK (Carry.two a0 a1).bytes = or32 (zext32 a0) (shl32 (zext32 a1) 8) := by
  have hjoin : tailK (Carry.two a0 a1).bytes = or32 (tailK (Carry.one a0).bytes) (shl32 (zext32 a1) 8) :=
    tailK_concat (bs := [a0]) (by simp) a1
  rw [hjoin, tailK_one]

theorem tailK_three : tailK (Carry.three a0 a1 a2).bytes =
    or32 (or32 (zext32 a0) (shl32 (zext32 a1) 8)) (shl32 (zext32 a2) 16) := by
  have hjoin : tailK (Carry.three a0 a1 a2).bytes = or32 (tailK (Carry.two a0 a1).bytes) (shl32 (zext32 a2) 16) :=
    tailK_concat (bs := [a0, a1]) (by simp) a2
  rw [hjoin, tailK_two]

end

end Sys2Proof.Machine

namespace Sys2Proof.Proofs
open Sys2Proof Sys2Proof.Machine

/-- Settles O4: the loop as a fold over the pending positions, the bound and the OR forms by one byte more at a time. -/
theorem tailValueCombinesThePendingBytes : Obligations.TailValueCombinesThePendingBytes := by
  refine ⟨fun c => ⟨?fold, ?bound⟩, tailK_one, tailK_two, tailK_three, by decide⟩
  case fold =>
    rw [tailK_eq_foldl, carry_length_bytes]
  case bound =>
    have hlen : c.bytes.length ≤ 4 := by
      rw [carry_length_bytes]
      exact (carry_len_le c).trans (by decide)
    simpa using tailK_toNat_lt hlen

end Sys2Proof.Proofs
end

section
/-! The finalization mix and the two finish commands (R130 to R136). `Fmix` is its five lines with the literals of R8, the
hash is given by the pending bytes, and a finish command is a whole next state with that hash. -/

namespace Sys2Proof.Machine

theorem fmix_eq (x a b c d : Word) (ha : a = xor32 x (shr32 x 16)) (hb : b = mul32 a 0x85ebca6b)
    (hc : c = xor32 b (shr32 b 13)) (hd : d = mul32 c 0xc2b2ae35) : fmix x = xor32 d (shr32 d 16) := by
  subst ha hb hc hd
  rfl

section
variable {m : M3Context}

/-- R132: with nothing pending there is no tail term. -/
theorem m3Finish32_of_nothing_pending (h : m.carry = .zero) : m3Finish32 m = fmix (xor32 m.mixState m.processed) := by
  rw [m3Finish32, resolveTail_of_carry_zero h]

/-- R132: pending bytes are mixed in by the steps 1 to 3 of the block mix. -/
theorem m3Finish32_of_pending (h : m.carry.len > 0) :
    m3Finish32 m = fmix (xor32 (xor32 m.mixState (kMix (tailK m.carry.bytes))) m.processed) := by
  rw [m3Finish32, resolveTail, if_pos h]

end

theorem exec_m3Finish (s : State) :
    exec .m3Finish s = .next { s with output := s.output ++ [.ok (.hash64 (m3Finish s.m3))] } :=
  exec_of_m3 rfl s

theorem toNat_m3Finish (m : M3Context) : (m3Finish m).toNat = (m3Finish32 m).toNat :=
  toNat_zext64 _

theorem m3Finish_m3Zero : m3Finish m3Zero = 0 := by
  rw [m3Finish, m3Finish32_m3Zero]
  rfl

end Sys2Proof.Machine

namespace Sys2Proof.Proofs
open Sys2Proof Sys2Proof.Machine

/-- Settles O7: the lines are the definition's; the corner cases and the example are evaluated. -/
theorem fmixIsTheFiveLines : Obligations.FmixIsTheFiveLines :=
  ⟨fmix_eq, by decide, by decide, by decide, by decide, by decide, by decide, by decide, by decide⟩

/-- Settles O14: the hash by whether a byte is pending, and the tail value of each pending length. -/
theorem m3Finish32AnswersTheHash : Obligations.M3Finish32AnswersTheHash := by
  refine ⟨fun s => ⟨_, exec_m3Finish32 s, m3Finish32_of_nothing_pending, ?one, ?two, ?three⟩, by decide,
    m3Finish32_m3Zero, by decide, by decide⟩
  case one =>
    intro a0 h
    rw [m3Finish32_of_pending (by simp [h, Carry.len]), h, tailK_one]
  case two =>
    intro a0 a1 h
    rw [m3Finish32_of_pending (by simp [h, Carry.len]), h, tailK_two]
  case three =>
    intro a0 a1 a2 h
    rw [m3Finish32_of_pending (by simp [h, Carry.len]), h, tailK_three]

/-- Settles O15: both commands as whole next states; widening keeps the number of the u32. -/
theorem m3FinishAnswersTheWidenedHash : Obligations.M3FinishAnswersTheWidenedHash := by
  refine ⟨fun s => ⟨_, _, exec_m3Finish32 s, exec_m3Finish s, toNat_m3Finish s.m3, ?bound⟩, by decide, m3Finish_m3Zero⟩
  case bound =>
    rw [toNat_m3Finish]
    exact (m3Finish32 s.m3).isLt

end Sys2Proof.Proofs
end

section
/-! The hash of the empty stream (R137, R167). Empty writes leave the contexts as a constructor made them, and the last
response of a run is that of its last command on the contexts before it. -/

namespace Sys2Proof.Machine

theorem eventsOf_append (is js : List Instr) : eventsOf (is ++ js) = eventsOf is ++ eventsOf js :=
  List.map_append

/-- The last response of a program that ends in the command `i`. -/
theorem getLast?_output_runProgram_concat {s : State} {i : Instr} (is : List Instr) (hr : s.wasReset = true)
    (hwf : i.wf s.hasFnv = true) :
    ∃ t, runProgram (is ++ [i]) s = .next t ∧
      t.output.getLast? = some (contextsAfterInstr (contextsAfterAll s.contexts (eventsOf is)).1 i).2 := by
  refine ⟨_, runEvents_eq_contexts _ hr, ?_⟩
  have hwf' : i.wf (contextsAfterAll s.contexts (eventsOf is)).1.2.isSome = true := by
    rw [contextsAfterAll_isSome]
    exact hwf
  simp [eventsOf_append, contextsAfterAll_append, contextsAfterAll, contextsAfter_encode hwf']

theorem flatMap_bytes_replicate {i : Instr} (h : i.bytes = []) (n : Nat) :
    (List.replicate n i).flatMap Instr.bytes = [] :=
  List.flatMap_eq_nil_iff.mpr (by simp [h])

theorem contextsAfterAll_m3Write0s (c : Contexts) (n : Nat) :
    (contextsAfterAll c (eventsOf (List.replicate n .m3Write0))).1 = c := by
  have hbeats : ∀ i ∈ List.replicate n Instr.m3Write0, i.ctx = .m3 ∧ i.fn = .write := by
    simp [Instr.ctx, Instr.fn]
  rw [contextsAfterAll_m3Writes hbeats c.1 c.2, flatMap_bytes_replicate rfl, m3Write_nil]

theorem contextsAfterAll_fnvWrite0s {c : Contexts} {v : Word} (h : c.2 = some v) (n : Nat) :
    (contextsAfterAll c (eventsOf (List.replicate n .fnvWrite0))).1 = c := by
  obtain ⟨m, _⟩ := c
  cases h
  have hbeats : ∀ i ∈ List.replicate n Instr.fnvWrite0, i.ctx = .fnv ∧ i.fn = .write := by
    simp [Instr.ctx, Instr.fn]
  rw [contextsAfterAll_fnvWrites hbeats, flatMap_bytes_replicate rfl, fnvWrite_nil]

theorem contextsAfter_m3Init (c : Contexts) :
    (contextsAfter c (.command (encode .m3Init))).1 = (m3Zero, c.2) := by
  rw [contextsAfter_encode (wf_of_m3 rfl _)]
  rfl

theorem contextsAfter_fnvInit {c : Contexts} {v : Word} (h : c.2 = some v) :
    (contextsAfter c (.command (encode .fnvInit))).1 = (c.1, some fnvBasis) := by
  have hwf : Instr.fnvInit.wf c.2.isSome = true := by simp [h, wf_of_hasFnv]
  rw [contextsAfter_encode hwf]
  simp [contextsAfterInstr, Instr.ctx, h, fnvEffect, Instr.fn]

theorem response_m3Finish32 (c : Contexts) :
    (contextsAfterInstr c .m3Finish32).2 = .ok (.hash32 (m3Finish32 c.1)) := rfl

theorem response_fnvFinish32 {c : Contexts} {v : Word} (h : c.2 = some v) :
    (contextsAfterInstr c .fnvFinish32).2 = .ok (.hash32 v) := by
  simp [contextsAfterInstr, Instr.ctx, h, fnvEffect, Instr.fn]

section
variable {s : State} {is : List Instr} (hr : s.wasReset = true)
include hr

/-- R137: after any program that leaves the zero state. -/
theorem m3Finish32_after_m3Write0s (h : (contextsAfterAll s.contexts (eventsOf is)).1.1 = m3Zero) (n : Nat) :
    ∃ t, runProgram (is ++ (List.replicate n .m3Write0 ++ [.m3Finish32])) s = .next t ∧
      t.output.getLast? = some (.ok (.hash32 0)) := by
  have hlast := getLast?_output_runProgram_concat (i := .m3Finish32) (is ++ List.replicate n .m3Write0)
    hr (wf_of_m3 rfl _)
  rwa [eventsOf_append, contextsAfterAll_append, contextsAfterAll_m3Write0s, response_m3Finish32, h,
    m3Finish32_m3Zero, List.append_assoc] at hlast

/-- R167: after any program that leaves the basis. -/
theorem fnvFinish32_after_fnvWrite0s (h : (contextsAfterAll s.contexts (eventsOf is)).1.2 = some fnvBasis) (n : Nat) :
    ∃ t, runProgram (is ++ (List.replicate n .fnvWrite0 ++ [.fnvFinish32])) s = .next t ∧
      t.output.getLast? = some (.ok (.hash32 fnvBasis)) := by
  have hf : s.hasFnv = true := by
    rw [← Option.isSome_some (a := fnvBasis), ← h, contextsAfterAll_isSome]
    rfl
  have hlast := getLast?_output_runProgram_concat (i := .fnvFinish32) (is ++ List.replicate n .fnvWrite0) hr hf
  rwa [eventsOf_append, contextsAfterAll_append, contextsAfterAll_fnvWrite0s h, response_fnvFinish32 h,
    List.append_assoc] at hlast

end

end Sys2Proof.Machine

namespace Sys2Proof.Proofs
open Sys2Proof Sys2Proof.Machine

/-- Settles O17: reset and `INIT` alike leave the constructed context, the empty writes keep it, and the finish command
answers its hash. -/
theorem emptyStreamHashesAreFixed : Obligations.EmptyStreamHashesAreFixed := by
  refine ⟨fun hasFnv => ?m3Reset, fun s n hr => ?m3Init, ?fnvReset, fun s n hr hf => ?fnvInit⟩
  case m3Reset => exact m3Finish32_after_m3Write0s (is := []) (resetWith_wasReset hasFnv) (resetWith_m3 hasFnv)
  case m3Init =>
    have hzero : (contextsAfterAll s.contexts (eventsOf [.m3Init])).1.1 = m3Zero :=
      congrArg Prod.fst (contextsAfter_m3Init s.contexts)
    exact m3Finish32_after_m3Write0s hr hzero n
  case fnvReset => exact fnvFinish32_after_fnvWrite0s (is := []) (resetWith_wasReset true) resetWith_true_fnvState
  case fnvInit =>
    obtain ⟨v, hv⟩ := hasFnv_eq_true.mp hf
    have hbasis : (contextsAfterAll s.contexts (eventsOf [.fnvInit])).1.2 = some fnvBasis :=
      congrArg Prod.snd (contextsAfter_fnvInit (c := s.contexts) hv)
    exact fnvFinish32_after_fnvWrite0s hr hbasis n

end Sys2Proof.Proofs
end

section
/-! The FNV-1a commands (R150 to R154). A step is one XOR and one wrapping multiply, and each finish command answers the
accumulator as it stands. -/

namespace Sys2Proof.Machine

/-- R151, R13: over naturals the step wraps once, at the product. -/
theorem toNat_fnvStep (v : Word) (b : Byte) :
    (fnvStep v b).toNat = ((v.toNat ^^^ b.toNat) * 16777619) % 2 ^ 32 := by
  have hprime : fnvPrime.toNat = 16777619 := by decide
  rw [fnvStep, mul32, xor32, BitVec.toNat_mul, BitVec.toNat_xor, toNat_zext32, hprime]

@[simp] theorem fnvWrite_cons (b : Byte) (bs : List Byte) (v : Word) :
    fnvWrite (b :: bs) v = fnvWrite bs (fnvStep v b) :=
  List.foldl_cons ..

theorem exec_fnvFinish_of_some {s : State} {v : Word} (h : s.fnvState = some v) :
    exec .fnvFinish s = .next { s with output := s.output ++ [.ok (.hash64 (zext64 v))] } := by
  rw [exec_of_fnv rfl, onFnv_of_some h]
  simp [fnvEffect, Instr.fn, h]

end Sys2Proof.Machine

namespace Sys2Proof.Proofs
open Sys2Proof Sys2Proof.Machine

/-- Settles O18: where the context exists its accumulator becomes the basis, whatever it held. -/
theorem fnvInitConstructsTheBasis : Obligations.FnvInitConstructsTheBasis := by
  refine ⟨fun s hs => ?_, by decide⟩
  obtain ⟨v, hv⟩ := hasFnv_eq_true.mp hs
  exact exec_fnvInit_of_some hv

/-- Settles O19: the step over naturals, and the two equations of the fold; the corner cases and the example are
evaluated. -/
theorem fnvStepIsXorThenMultiply : Obligations.FnvStepIsXorThenMultiply :=
  ⟨toNat_fnvStep, fnvWrite_nil, fun v b bs => fnvWrite_cons b bs v, by decide, by decide, by decide, by decide, by decide⟩

/-- Settles O21: both commands as whole next states; widening keeps the number of the u32. -/
theorem fnvFinishAnswersTheAccumulator : Obligations.FnvFinishAnswersTheAccumulator :=
  ⟨fun _ v hv => ⟨exec_fnvFinish32_of_some hv, zext64 v, toNat_zext64 v, exec_fnvFinish_of_some hv⟩,
    by decide, by decide⟩

end Sys2Proof.Proofs
end

section
/-! The laws of a stream cut into chunks (R113, R164), and the finish commands on the port (R168). -/

namespace Sys2Proof.Machine

/-- The induction over a list of chunks, once for both contexts: a `write` for which no byte is the identity and two
chunks are one joined is a single `write` of them all. -/
theorem foldl_write_eq_write_flatten {α : Type} {write : List Byte → α → α} (hnil : ∀ x, write [] x = x)
    (happend : ∀ xs ys x, write (xs ++ ys) x = write ys (write xs x)) (x : α) (ps : List (List Byte)) :
    ps.foldl (fun x p => write p x) x = write ps.flatten x := by
  induction ps generalizing x with
  | nil => exact (hnil x).symm
  | cons p ps ih => rw [List.foldl_cons, ih, List.flatten_cons, happend]

theorem foldl_m3Write (m : M3Context) (ps : List (List Byte)) :
    ps.foldl (fun m p => m3Write p m) m = m3Write ps.flatten m :=
  foldl_write_eq_write_flatten m3Write_nil m3Write_append m ps

theorem foldl_fnvWrite (v : Word) (ps : List (List Byte)) :
    ps.foldl (fun v p => fnvWrite p v) v = fnvWrite ps.flatten v :=
  foldl_write_eq_write_flatten fnvWrite_nil fnvWrite_append v ps

theorem extractLsb'_zext64 (v : Word) : (zext64 v).extractLsb' 0 32 = v := by
  apply BitVec.eq_of_toNat_eq
  rw [BitVec.extractLsb'_toNat, toNat_zext64, Nat.shiftRight_zero, Nat.mod_eq_of_lt v.isLt]

/-- R168 between the answers that the two finish commands of a context give to one hash. -/
theorem rdata_hash64_zext64 (hash : Word) :
    (Response.ok (.hash64 (zext64 hash))).rdata =
        zext64 ((Response.ok (.hash32 hash)).rdata.extractLsb' 0 32) ∧
      (Response.ok (.hash64 (zext64 hash))).rdata.toNat < 2 ^ 32 := by
  simp only [Response.rdata, Result.rdata, extractLsb'_zext64, toNat_zext64]
  exact ⟨trivial, hash.isLt⟩

end Sys2Proof.Machine

namespace Sys2Proof.Proofs
open Sys2Proof Sys2Proof.Machine

/-- Settles O23: in either context the chunks in turn are one `write` of their concatenation, and equal contexts have
equal hashes. -/
theorem streamingEquivalence : Obligations.StreamingEquivalence := by
  refine ⟨fun m ps => ?_, foldl_fnvWrite⟩
  rw [foldl_m3Write]
  exact ⟨rfl, rfl, rfl⟩

/-- Settles O16: both commands of a context answer its one hash, as a u32 and widened. -/
theorem finishIsFinish32Widened : Obligations.FinishIsFinish32Widened := by
  refine ⟨fun s => ⟨_, _, exec_m3Finish32 s, exec_m3Finish s, rdata_hash64_zext64 _⟩, fun s hs => ?fnv⟩
  case fnv =>
    obtain ⟨v, hv⟩ := hasFnv_eq_true.mp hs
    exact ⟨_, _, exec_fnvFinish32_of_some hv, exec_fnvFinish_of_some hv, rdata_hash64_zext64 v⟩

end Sys2Proof.Proofs
end

section
/-! A program command by command. The word of any command does to the contexts what `exec` does, also where the
FNV-1a context is absent (R84 (2)), and a finish command leaves the contexts as they are (R134, R153). -/

namespace Sys2Proof

theorem wf_eq_false_iff {hasFnv : Bool} {i : Instr} : i.wf hasFnv = false ↔ i.ctx = .fnv ∧ hasFnv = false := by
  cases hc : i.ctx <;> simp [Instr.wf, hc]

/-- Check 2 of R77 is the one that a command's own word can fail. -/
theorem decode_encode_of_not_wf {hasFnv : Bool} {i : Instr} (h : i.wf hasFnv = false) :
    decode hasFnv (encode i) = .error .absentExtension := by
  obtain ⟨hrsv, hctx, -⟩ := Laws.EncodedFields.of_length_le i (length_bytes_le i)
  rw [decode, if_neg (not_not.mpr hrsv), hctx, ctxOfBit_ctxBit, if_pos (wf_eq_false_iff.mp h)]

end Sys2Proof

namespace Sys2Proof.Machine

section
variable {i : Instr}

theorem contextsAfterInstr_of_m3 (h : i.ctx = .m3) (c : Contexts) :
    contextsAfterInstr c i = (((m3Effect i c.1).1, c.2), .ok (m3Effect i c.1).2) := by
  simp [contextsAfterInstr, h]

theorem contextsAfterInstr_of_fnv (h : i.ctx = .fnv) (m : M3Context) (v : Word) :
    contextsAfterInstr (m, some v) i = ((m, some (fnvEffect i v).1), .ok (fnvEffect i v).2) := by
  simp [contextsAfterInstr, h]

theorem contextsAfterInstr_of_absent (h : i.ctx = .fnv) (m : M3Context) :
    contextsAfterInstr (m, none) i = ((m, none), .illegal) := by
  simp [contextsAfterInstr, h]

end

/-- `contextsAfter_encode` for every command: one of the absent FNV-1a context is illegal as a word and as a
command. -/
theorem contextsAfter_command_encode (c : Contexts) (i : Instr) :
    contextsAfter c (.command (encode i)) = ((contextsAfterInstr c i).1, [(contextsAfterInstr c i).2]) := by
  obtain ⟨m, f⟩ := c
  cases h : i.wf f.isSome with
  | true => exact contextsAfter_encode h
  | false =>
    obtain ⟨hctx, hf⟩ := wf_eq_false_iff.mp h
    obtain rfl : f = none := by simpa using hf
    have hdecode : decode false (encode i) = .error .absentExtension := decode_encode_of_not_wf h
    simp [contextsAfter, hdecode, contextsAfterInstr_of_absent hctx]

theorem contextsAfterAll_eventsOf_cons (c : Contexts) (i : Instr) (is : List Instr) :
    contextsAfterAll c (eventsOf (i :: is)) =
      ((contextsAfterAll (contextsAfterInstr c i).1 (eventsOf is)).1,
       (contextsAfterInstr c i).2 :: (contextsAfterAll (contextsAfterInstr c i).1 (eventsOf is)).2) := by
  simp [contextsAfterAll, contextsAfter_command_encode]

section
variable {i : Instr} (h : i.fn = .finish32 ∨ i.fn = .finish)
include h

theorem m3Effect_of_finish (m : M3Context) : (m3Effect i m).1 = m := by
  rcases h with h | h <;> simp [m3Effect, h]

theorem fnvEffect_of_finish (v : Word) : (fnvEffect i v).1 = v := by
  rcases h with h | h <;> simp [fnvEffect, h]

theorem contextsAfterInstr_of_finish (c : Contexts) : (contextsAfterInstr c i).1 = c := by
  cases hctx : i.ctx with
  | m3 => rw [contextsAfterInstr_of_m3 hctx, m3Effect_of_finish h]
  | fnv =>
    obtain ⟨m, _ | v⟩ := c
    · rw [contextsAfterInstr_of_absent hctx]
    · rw [contextsAfterInstr_of_fnv hctx, fnvEffect_of_finish h]

end

/-- A command that exists under `HAS_FNV` is answered `OK`. -/
theorem response_of_wf {c : Contexts} {i : Instr} (h : i.wf c.2.isSome = true) :
    ∃ r, (contextsAfterInstr c i).2 = .ok r := by
  cases hctx : i.ctx with
  | m3 => exact ⟨_, congrArg Prod.snd (contextsAfterInstr_of_m3 hctx c)⟩
  | fnv =>
    obtain ⟨m, _ | v⟩ := c
    · exact absurd ⟨hctx, rfl⟩ (not_absentExtension_of_wf h)
    · exact ⟨_, congrArg Prod.snd (contextsAfterInstr_of_fnv hctx m v)⟩

theorem contextsAfterAll_replicate {c : Contexts} {i : Instr} {r : Response} (h : contextsAfterInstr c i = (c, r))
    (n : Nat) : contextsAfterAll c (eventsOf (List.replicate n i)) = (c, List.replicate n r) := by
  induction n with
  | zero => rfl
  | succ n ih => simp only [List.replicate_succ, contextsAfterAll_eventsOf_cons, h, ih]

end Sys2Proof.Machine

namespace Sys2Proof.Proofs
open Sys2Proof Sys2Proof.Machine

/-- Settles O28: a finish command leaves the contexts, so the next one finds the same and answers the same. -/
theorem repeatedFinishAnswersTheSame : Obligations.RepeatedFinishAnswersTheSame := by
  intro s i hr hwf hfinish
  obtain ⟨r, hanswer⟩ := response_of_wf (c := s.contexts) hwf
  have hcommand : contextsAfterInstr s.contexts i = (s.contexts, .ok r) :=
    Prod.ext (contextsAfterInstr_of_finish hfinish _) hanswer
  refine ⟨r, fun n => ?_⟩
  rw [runProgram, runEvents_eq_contexts _ hr, contextsAfterAll_replicate hcommand, hr]
  rfl

end Sys2Proof.Proofs
end

section
/-! The one-shot hashes (R161 to R163). `WRITEN` is a program of beats that carries its bytes, and a context that is
written from construction on holds what the one-shot function computes (R139, R155). -/

namespace Sys2Proof.Machine

theorem m3WriteN_beats (bs : List Byte) : ∀ i ∈ m3WriteN bs, i.ctx = .m3 ∧ i.fn = .write := by
  induction bs using blocks_induction with
  | carry c => cases c <;> simp [Carry.bytes, m3WriteN, Instr.ctx, Instr.fn]
  | block b0 b1 b2 b3 rest ih =>
    rw [m3WriteN, List.forall_mem_cons]
    exact ⟨⟨rfl, rfl⟩, ih⟩

theorem fnvWriteN_beats (bs : List Byte) : ∀ i ∈ fnvWriteN bs, i.ctx = .fnv ∧ i.fn = .write := by
  induction bs using blocks_induction with
  | carry c => cases c <;> simp [Carry.bytes, fnvWriteN, Instr.ctx, Instr.fn]
  | block b0 b1 b2 b3 rest ih =>
    rw [fnvWriteN, List.forall_mem_cons]
    exact ⟨⟨rfl, rfl⟩, ih⟩

theorem flatMap_bytes_m3WriteN (bs : List Byte) : (m3WriteN bs).flatMap Instr.bytes = bs := by
  induction bs using blocks_induction with
  | carry c => cases c <;> rfl
  | block b0 b1 b2 b3 rest ih =>
    rw [m3WriteN, List.flatMap_cons, ih]
    rfl

/-- R163: the cut of `FNV.WRITEN` is that of `M3.WRITEN`. -/
theorem map_bytes_fnvWriteN (bs : List Byte) : (fnvWriteN bs).map Instr.bytes = (m3WriteN bs).map Instr.bytes := by
  induction bs using blocks_induction with
  | carry c => cases c <;> rfl
  | block b0 b1 b2 b3 rest ih =>
    rw [fnvWriteN, m3WriteN, List.map_cons, List.map_cons, ih]
    rfl

theorem flatMap_bytes_fnvWriteN (bs : List Byte) : (fnvWriteN bs).flatMap Instr.bytes = bs := by
  rw [List.flatMap_def, map_bytes_fnvWriteN, ← List.flatMap_def, flatMap_bytes_m3WriteN]

theorem fnvWrite_fnvBasis (S : List Byte) : fnvWrite S fnvBasis = fnv1a_32 S := rfl

/-- R139 reads the tail at its place in the stream, R131 as the pending bytes. -/
theorem tailValue_eq_tailK {S : List Byte} (h : S.length % 4 > 0) : tailValue S = tailK (remainderOf S).bytes := by
  have hbyte (j : Nat) : S.getD (4 * (S.length / 4) + j) 0 = (remainderOf S).bytes.getD j 0 := by
    simp [remainderOf_bytes_eq_drop]
  have hbyte0 : S.getD (4 * (S.length / 4)) 0 = (remainderOf S).bytes.getD 0 0 := hbyte 0
  simp only [tailValue, hbyte, hbyte0]
  rw [← remainderOf_len] at h ⊢
  generalize remainderOf S = c at h ⊢
  cases c with
  | zero => exact absurd h (Nat.lt_irrefl 0)
  | one a0 => rw [tailK_one]; rfl
  | two a0 a1 => rw [tailK_two]; rfl
  | three a0 a1 a2 => rw [tailK_three]; rfl

/-- The context that `S` leaves from construction on. -/
theorem m3Write_m3Zero (S : List Byte) :
    m3Write S m3Zero =
      { mixState := mixedBlocks S, processed := BitVec.ofNat 32 S.length, carry := remainderOf S } := by
  have hbuffer : mixAndBuffer m3Zero.mixState (m3Zero.carry.bytes ++ S) = (mixedBlocks S, remainderOf S) :=
    Prod.ext (mixAndBuffer_mixState 0 S) rfl
  rw [m3Write_eq, hbuffer]
  simp [add32]

theorem m3Finish32_m3Write_m3Zero (S : List Byte) : m3Finish32 (m3Write S m3Zero) = murmur3_32 S := by
  rw [m3Write_m3Zero, m3Finish32, resolveTail, murmur3_32, remainderOf_len]
  by_cases h : S.length % 4 > 0
  · simp only [if_pos h, tailValue_eq_tailK h]
  · simp only [if_neg h]

/-- The shape of both `HASH` operations: a constructor, beats, and a finish command that leaves the contexts. -/
theorem contextsAfterAll_hash {init finish : Instr} {is : List Instr} {c c₀ c₁ : Contexts} {r : Response}
    (hinit : contextsAfterInstr c init = (c₀, .ok .none))
    (hbeats : contextsAfterAll c₀ (eventsOf is) = (c₁, List.replicate is.length (.ok .none)))
    (hfinish : contextsAfterInstr c₁ finish = (c₁, r)) :
    contextsAfterAll c (eventsOf (init :: (is ++ [finish]))) =
      (c₁, List.replicate (is.length + 1) (.ok .none) ++ [r]) := by
  have hlast : contextsAfterAll c₁ (eventsOf [finish]) = (c₁, [r]) := by
    rw [contextsAfterAll_eventsOf_cons, hfinish]
    rfl
  rw [contextsAfterAll_eventsOf_cons, hinit, eventsOf_append, contextsAfterAll_append, hbeats, hlast]
  rfl

theorem contextsAfterAll_m3Hash (m : M3Context) (f : Option Word) (bs : List Byte) :
    contextsAfterAll (m, f) (eventsOf (m3Hash bs)) =
      ((m3Write bs m3Zero, f),
       List.replicate ((m3WriteN bs).length + 1) (.ok .none) ++ [.ok (.hash32 (murmur3_32 bs))]) := by
  have hbeats := contextsAfterAll_m3Writes (m3WriteN_beats bs) m3Zero f
  rw [flatMap_bytes_m3WriteN] at hbeats
  rw [← m3Finish32_m3Write_m3Zero]
  exact contextsAfterAll_hash rfl hbeats rfl

theorem contextsAfterAll_fnvHash (m : M3Context) (v : Word) (bs : List Byte) :
    contextsAfterAll (m, some v) (eventsOf (fnvHash bs)) =
      ((m, some (fnv1a_32 bs)),
       List.replicate ((fnvWriteN bs).length + 1) (.ok .none) ++ [.ok (.hash32 (fnv1a_32 bs))]) := by
  have hbeats := contextsAfterAll_fnvWrites (fnvWriteN_beats bs) m fnvBasis
  rw [flatMap_bytes_fnvWriteN] at hbeats
  exact contextsAfterAll_hash rfl hbeats rfl

end Sys2Proof.Machine

namespace Sys2Proof.Proofs
open Sys2Proof Sys2Proof.Machine

/-- Settles O26: the constructor forgets the stream before, the beats write all the bytes, and the hash of a context
written from construction on is the one-shot hash. -/
theorem m3HashAnswersTheOneShotHash : Obligations.M3HashAnswersTheOneShotHash := by
  refine ⟨fun s bs hr => ?run, by decide, by decide⟩
  refine ⟨_, runEvents_eq_contexts _ hr, ?_⟩
  simp [State.contexts, contextsAfterAll_m3Hash]

/-- Settles O27: the beats by induction over the blocks, the run as that of `M3.HASH` on the other context. -/
theorem fnvHashAnswersTheOneShotHash : Obligations.FnvHashAnswersTheOneShotHash := by
  refine ⟨fun bs => ⟨map_bytes_fnvWriteN bs, fnvWriteN_beats bs⟩, fun s bs hr hs => ?run, by decide, by decide⟩
  obtain ⟨v, hv⟩ := hasFnv_eq_true.mp hs
  refine ⟨_, runEvents_eq_contexts _ hr, ?_⟩
  simp [State.contexts, hv, contextsAfterAll_fnvHash]

end Sys2Proof.Proofs
end

section
/-! Finish commands leave no trace (R166): by induction over the program, deleting them keeps the contexts at every
point and so every response of the commands that stay. -/

namespace Sys2Proof

/-- The commands that stay when every `FINISH32` and `FINISH` is deleted. -/
def Instr.writesOrInits (i : Instr) : Bool := decide (i.fn = .write ∨ i.fn = .init)

theorem finish_of_not_writesOrInits {i : Instr} (h : i.writesOrInits = false) :
    i.fn = .finish32 ∨ i.fn = .finish := by
  cases hfn : i.fn with
  | finish32 => exact .inl rfl
  | finish => exact .inr rfl
  | write => simp [Instr.writesOrInits, hfn] at h
  | init => simp [Instr.writesOrInits, hfn] at h

theorem filter_writesOrInits_of_writes {is : List Instr} (h : ∀ i ∈ is, i.fn = .write) :
    is.filter Instr.writesOrInits = is :=
  List.filter_eq_self.mpr fun i hi => decide_eq_true (.inl (h i hi))

/-- A finish command between writes is all that is deleted. -/
theorem filter_writesOrInits_continuation {is js : List Instr} {f : Instr} (his : ∀ i ∈ is, i.fn = .write)
    (hf : f.writesOrInits = false) (hjs : ∀ j ∈ js, j.fn = .write) :
    (is ++ f :: js).filter Instr.writesOrInits = is ++ js := by
  rw [List.filter_append, List.filter_cons_of_neg (by simp [hf]), filter_writesOrInits_of_writes his,
    filter_writesOrInits_of_writes hjs]

end Sys2Proof

namespace Sys2Proof.Machine

/-- R166 over the contexts. -/
theorem contextsAfterAll_filter_writesOrInits (c : Contexts) (is : List Instr) :
    (contextsAfterAll c (eventsOf (is.filter Instr.writesOrInits))).1 = (contextsAfterAll c (eventsOf is)).1 ∧
    (is.zip (contextsAfterAll c (eventsOf is)).2).filter (fun p => p.1.writesOrInits) =
      (is.filter Instr.writesOrInits).zip (contextsAfterAll c (eventsOf (is.filter Instr.writesOrInits))).2 := by
  induction is generalizing c with
  | nil => exact ⟨rfl, rfl⟩
  | cons i is ih =>
    cases hi : i.writesOrInits with
    | true =>
      obtain ⟨hcontexts, hresponses⟩ := ih (contextsAfterInstr c i).1
      rw [List.filter_cons_of_pos hi]
      simp [contextsAfterAll_eventsOf_cons, hi, hcontexts, hresponses, -eventsOf_cons]
    | false =>
      have hkept := contextsAfterInstr_of_finish (finish_of_not_writesOrInits hi) c
      obtain ⟨hcontexts, hresponses⟩ := ih c
      rw [List.filter_cons_of_neg (by simp [hi])]
      simp [contextsAfterAll_eventsOf_cons, hkept, hi, hcontexts, hresponses, -eventsOf_cons]

/-- A stream that is finished midway and continued is one stream. -/
theorem contextsAfterAll_continued_m3 (m : M3Context) (f : Option Word) (a b : List Byte) :
    (contextsAfterAll (m, f) (eventsOf (m3WriteN a ++ .m3Finish32 :: m3WriteN b))).1 = (m3Write (a ++ b) m, f) := by
  have hwrite (bs : List Byte) : ∀ i ∈ m3WriteN bs, i.fn = .write := fun i hi => (m3WriteN_beats bs i hi).2
  have hbeats : ∀ i ∈ m3WriteN a ++ m3WriteN b, i.ctx = .m3 ∧ i.fn = .write :=
    List.forall_mem_append.mpr ⟨m3WriteN_beats a, m3WriteN_beats b⟩
  rw [← (contextsAfterAll_filter_writesOrInits _ _).1, filter_writesOrInits_continuation (hwrite a) rfl (hwrite b),
    contextsAfterAll_m3Writes hbeats, List.flatMap_append, flatMap_bytes_m3WriteN, flatMap_bytes_m3WriteN]

theorem contextsAfterAll_continued_fnv (m : M3Context) (v : Word) (a b : List Byte) :
    (contextsAfterAll (m, some v) (eventsOf (fnvWriteN a ++ .fnvFinish32 :: fnvWriteN b))).1 =
      (m, some (fnvWrite (a ++ b) v)) := by
  have hwrite (bs : List Byte) : ∀ i ∈ fnvWriteN bs, i.fn = .write := fun i hi => (fnvWriteN_beats bs i hi).2
  have hbeats : ∀ i ∈ fnvWriteN a ++ fnvWriteN b, i.ctx = .fnv ∧ i.fn = .write :=
    List.forall_mem_append.mpr ⟨fnvWriteN_beats a, fnvWriteN_beats b⟩
  rw [← (contextsAfterAll_filter_writesOrInits _ _).1, filter_writesOrInits_continuation (hwrite a) rfl (hwrite b),
    contextsAfterAll_fnvWrites hbeats, List.flatMap_append, flatMap_bytes_fnvWriteN, flatMap_bytes_fnvWriteN]

end Sys2Proof.Machine

namespace Sys2Proof.Proofs
open Sys2Proof Sys2Proof.Machine

/-- Settles O29: the deletion over the contexts; a continued stream is, with its first finish deleted, one `write` of
both parts. -/
theorem finishCommandsLeaveNoTrace : Obligations.FinishCommandsLeaveNoTrace := by
  refine ⟨fun s is hr hout => ?deletion, fun hasFnv a b => ?m3, fun a b => ?fnv⟩
  case deletion =>
    obtain ⟨hcontexts, hresponses⟩ := contextsAfterAll_filter_writesOrInits s.contexts is
    refine ⟨_, _, runEvents_eq_contexts _ hr, runEvents_eq_contexts _ hr, ?_, ?_, ?_⟩
    · exact congrArg Prod.fst hcontexts.symm
    · exact congrArg Prod.snd hcontexts.symm
    · simp only [hout, List.nil_append]
      exact hresponses
  case m3 =>
    have hlast := getLast?_output_runProgram_concat (i := .m3Finish32) (m3WriteN a ++ .m3Finish32 :: m3WriteN b)
      (resetWith_wasReset hasFnv) (wf_of_m3 rfl _)
    rwa [State.contexts, contextsAfterAll_continued_m3, response_m3Finish32, resetWith_m3, m3Finish32_m3Write_m3Zero,
      List.append_assoc] at hlast
  case fnv =>
    have hlast := getLast?_output_runProgram_concat (i := .fnvFinish32) (fnvWriteN a ++ .fnvFinish32 :: fnvWriteN b)
      (resetWith_wasReset true) rfl
    rwa [State.contexts, resetWith_true_fnvState, contextsAfterAll_continued_fnv, response_fnvFinish32 rfl,
      fnvWrite_fnvBasis, List.append_assoc] at hlast

end Sys2Proof.Proofs
end

section
/-! Illegal words and safety (R170, R172, R177). An illegal word leaves the contexts and answers `ILLEGAL`, so a run of
them, and a run around one, follow from the contexts alone; and a step after reset goes on to a state after reset. -/

namespace Sys2Proof.Machine

section
variable {c : Contexts} {w : CmdWord} {e : DecodeError}

theorem contextsAfter_illegal (h : decode c.2.isSome w = .error e) :
    contextsAfter c (.command w) = (c, [.illegal]) := by
  simp [contextsAfter, h]

theorem contextsAfterAll_illegal {ws : List CmdWord} (h : ∀ w ∈ ws, ∃ e, decode c.2.isSome w = .error e) :
    contextsAfterAll c (ws.map .command) = (c, List.replicate ws.length .illegal) := by
  induction ws with
  | nil => rfl
  | cons w ws ih =>
    obtain ⟨⟨_, hw⟩, hws⟩ := List.forall_mem_cons.mp h
    simp [contextsAfterAll, contextsAfter_illegal hw, ih hws, List.replicate_succ]

/-- No event changes whether the FNV-1a context exists, so a word that is illegal at first is illegal at any place. -/
theorem contextsAfterAll_illegal_inserted (h : decode c.2.isSome w = .error e) (before later : List HostEvent) :
    contextsAfterAll c (before ++ .command w :: later) =
      ((contextsAfterAll (contextsAfterAll c before).1 later).1,
       (contextsAfterAll c before).2 ++ .illegal :: (contextsAfterAll (contextsAfterAll c before).1 later).2) := by
  have hthere : decode (contextsAfterAll c before).1.2.isSome w = .error e := by rwa [contextsAfterAll_isSome]
  simp [contextsAfterAll_append, contextsAfterAll, contextsAfter_illegal hthere]

end

/-- A step after reset, with an event to take or none, goes on to a state after reset. -/
theorem step_next_of_wasReset {s : State} (hr : s.wasReset = true) : ∃ t, step s = .next t ∧ t.wasReset = true := by
  cases hin : s.input with
  | nil => exact ⟨s, step_of_wait hin, hr⟩
  | cons e rest => exact ⟨_, step_eq_contexts hr hin, rfl⟩

theorem safeRun_of_wasReset {s : State} (n : Nat) (hr : s.wasReset = true) : SafeRun n s := by
  induction n generalizing s with
  | zero => exact ⟨s, run_zero s⟩
  | succ n ih =>
    obtain ⟨t, hstep, hrt⟩ := step_next_of_wasReset hr
    rw [SafeRun, run_succ_of_next n hstep]
    exact ih hrt

end Sys2Proof.Machine

namespace Sys2Proof.Proofs
open Sys2Proof Sys2Proof.Machine

/-- Settles O35: over the contexts, illegal words leave no effect, and one put between other events adds its answer
there. -/
theorem illegalWordsLeaveNoTrace : Obligations.IllegalWordsLeaveNoTrace := by
  refine ⟨fun s ws hr hws => ?row, fun s w e before later hr hw => ?inserted⟩
  case row =>
    rw [runEvents_eq_contexts _ hr, contextsAfterAll_illegal (c := s.contexts) hws, hr]
    rfl
  case inserted =>
    refine ⟨_, _, _, (contextsAfterAll (contextsAfterAll s.contexts before).1 later).2,
      runEvents_eq_contexts before hr, runEvents_eq_contexts _ hr, runEvents_eq_contexts _ hr, ?_⟩
    rw [contextsAfterAll_illegal_inserted (c := s.contexts) hw, contextsAfterAll_append]
    exact ⟨rfl, rfl, (List.append_assoc ..).symm, (List.append_assoc ..).symm⟩

/-- Settles O37: every step after reset goes on to a state after reset, by induction on the number of steps. -/
theorem everyRunAfterResetIsSafe : Obligations.EveryRunAfterResetIsSafe :=
  fun _ n hr => safeRun_of_wasReset n hr

/-- Settles O34: the two branches of a step that takes a word after reset. -/
theorem stepRunsTheDecodedCommand : Obligations.StepRunsTheDecodedCommand :=
  fun _ _ _ hr hin => ⟨fun _ hd => step_of_legal hr hin hd, fun _ hd => step_of_illegal hr hin hd⟩

end Sys2Proof.Proofs
end

section
/-! The reset input (R190, R192). A reset makes of any contexts those of the reset state, so what follows it runs as from
there; and the two `INIT`s make the same contexts. -/

namespace Sys2Proof.Machine

theorem contextsAfter_reset (c : Contexts) :
    contextsAfter c .reset = ((State.resetWith c.2.isSome).contexts, []) := by
  obtain ⟨m, _ | v⟩ := c <;> rfl

/-- R190: in either instance `M3.INIT` and `FNV.INIT` construct what a reset does. -/
theorem contextsAfterAll_inits (c : Contexts) :
    (contextsAfterAll c (eventsOf [.m3Init, .fnvInit])).1 = (contextsAfter c .reset).1 := by
  simp only [contextsAfterAll_eventsOf_cons]
  obtain ⟨m, _ | v⟩ := c <;> rfl

/-- R192: nothing before a reset reaches what follows it, as `HAS_FNV` is all that events keep of the contexts. -/
theorem contextsAfterAll_reset_inserted (c : Contexts) (before later : List HostEvent) :
    contextsAfterAll c (before ++ .reset :: later) =
      ((contextsAfterAll (State.resetWith c.2.isSome).contexts later).1,
       (contextsAfterAll c before).2 ++ (contextsAfterAll (State.resetWith c.2.isSome).contexts later).2) := by
  simp only [contextsAfterAll_append, contextsAfterAll, contextsAfter_reset, contextsAfterAll_isSome, List.nil_append]

end Sys2Proof.Machine

namespace Sys2Proof.Proofs
open Sys2Proof Sys2Proof.Machine

/-- Settles O40: over the contexts, the events after the reset start from the reset state, and what the events before it
answered stands in front. -/
theorem resetDiscardsBothStreams : Obligations.ResetDiscardsBothStreams := by
  intro s before later hr
  refine ⟨_, _, (contextsAfterAll s.contexts before).2, runEvents_eq_contexts _ hr,
    runEvents_eq_contexts _ (resetWith_wasReset s.hasFnv), ?_⟩
  rw [contextsAfterAll_reset_inserted]
  exact ⟨rfl, rfl, (List.append_assoc ..).symm⟩

/-- Settles O38: the step that takes a reset needs no earlier one; the two `INIT`s construct the same contexts. -/
theorem resetConstructsEveryContext : Obligations.ResetConstructsEveryContext := by
  refine ⟨fun s rest h => step_of_reset h, fun s hr hs => ?inits⟩
  case inits =>
    have hf : s.contexts.2.isSome = true := hs
    refine ⟨_, runEvents_eq_contexts _ hr, ?_⟩
    rw [contextsAfterAll_inits, contextsAfter_reset, hf]
    exact ⟨rfl, rfl⟩

end Sys2Proof.Proofs
end

section
/-! The abstraction function (R28, R155). A context stands for a stream if and only if it is what one write of the
stream leaves of a constructed context; so two streams determine both contexts, and an event makes of them the contexts
of the streams it makes. -/

namespace Sys2Proof.Machine

theorem carry_eq_of_bytes_eq {c c' : Carry} (h : c.bytes = c'.bytes) : c = c' := by
  rw [← remainderOf_bytes c, h, remainderOf_bytes]

theorem remainderOf_bytes_getElem? (S : List Byte) (j : Nat) :
    (remainderOf S).bytes[j]? = S[4 * (S.length / 4) + j]? := by
  rw [remainderOf_bytes_eq_drop, List.getElem?_drop]

/-- R28's equations on the carry: the pending bytes are those behind the last complete block. -/
theorem carry_eq_remainderOf {c : Carry} {S : List Byte} (hlen : c.len = S.length % 4)
    (hbytes : ∀ j, j < S.length % 4 → c.bytes[j]? = S[4 * (S.length / 4) + j]?) : c = remainderOf S := by
  have hlength : c.bytes.length = (remainderOf S).bytes.length := by
    rw [carry_length_bytes, carry_length_bytes, hlen, remainderOf_len]
  refine carry_eq_of_bytes_eq (List.ext_getElem? fun j => ?_)
  by_cases hj : j < c.bytes.length
  · rw [remainderOf_bytes_getElem?]
    exact hbytes j (by rwa [carry_length_bytes, hlen] at hj)
  · rw [List.getElem?_eq_none (by omega), List.getElem?_eq_none (by omega)]

/-- R28's four equations leave no choice of the context. -/
theorem represents_iff {m : M3Context} {S : List Byte} : m.Represents S ↔ m = m3Write S m3Zero := by
  rw [m3Write_m3Zero]
  constructor
  · obtain ⟨h, p, c⟩ := m
    rintro ⟨hmix, hcount, hlen, hbytes⟩
    have hprocessed : p = BitVec.ofNat 32 S.length :=
      BitVec.eq_of_toNat_eq (hcount.trans (BitVec.toNat_ofNat ..).symm)
    exact (M3Context.mk.injEq ..).mpr ⟨hmix, hprocessed, carry_eq_remainderOf hlen hbytes⟩
  · rintro rfl
    exact ⟨rfl, BitVec.toNat_ofNat .., remainderOf_len S, fun j _ => remainderOf_bytes_getElem? S j⟩

/-- The contexts that stand for the streams `S` and `F`, where the FNV-1a context exists and where it does not. -/
def contextsOfStreams (hasFnv : Bool) (S F : List Byte) : Contexts :=
  (m3Write S m3Zero, if hasFnv then some (fnv1a_32 F) else none)

section
variable {s : State} {hasFnv : Bool} {S F : List Byte}

theorem isSome_contextsOfStreams (hasFnv : Bool) (S F : List Byte) :
    (contextsOfStreams hasFnv S F).2.isSome = hasFnv := by
  cases hasFnv <;> rfl

theorem represents_of_contexts (h : s.contexts = contextsOfStreams hasFnv S F) : s.Represents S F := by
  obtain ⟨hm, hf⟩ := Prod.mk.inj h
  refine ⟨represents_iff.mpr hm, fun v hv => ?_⟩
  rw [hf] at hv
  cases hasFnv with
  | false => cases hv
  | true => exact (Option.some.inj hv).symm

theorem contexts_of_represents (h : s.Represents S F) : s.contexts = contextsOfStreams s.hasFnv S F := by
  obtain ⟨hm, hf⟩ := h
  refine Prod.ext (represents_iff.mp hm) ?_
  cases hv : s.fnvState with
  | none => simp [State.contexts, contextsOfStreams, State.hasFnv, hv]
  | some v => simp [State.contexts, contextsOfStreams, State.hasFnv, hv, hf v hv]

end

theorem contexts_resetWith (hasFnv : Bool) : (State.resetWith hasFnv).contexts = contextsOfStreams hasFnv [] [] := by
  cases hasFnv <;> rfl

section
variable {c : Ctx} {i : Instr}

theorem streamAfterInstr_of_other (h : i.ctx ≠ c) (S : List Byte) : streamAfterInstr c S i = S :=
  if_neg h

theorem m3Effect_of_stream (h : i.ctx = .m3) (S : List Byte) :
    (m3Effect i (m3Write S m3Zero)).1 = m3Write (streamAfterInstr .m3 S i) m3Zero := by
  rw [streamAfterInstr, if_pos h, m3Effect]
  cases i.fn with
  | write => exact (m3Write_append S i.bytes m3Zero).symm
  | finish32 => rfl
  | finish => rfl
  | init => exact (m3Write_nil m3Zero).symm

theorem fnvEffect_of_stream (h : i.ctx = .fnv) (F : List Byte) :
    (fnvEffect i (fnv1a_32 F)).1 = fnv1a_32 (streamAfterInstr .fnv F i) := by
  rw [streamAfterInstr, if_pos h, fnvEffect]
  cases i.fn with
  | write => exact (fnvWrite_append F i.bytes fnvBasis).symm
  | finish32 => rfl
  | finish => rfl
  | init => rfl

end

/-- A command of one context does to it what it does to its stream, and leaves the other context and its stream. -/
theorem contextsAfterInstr_of_streams (hasFnv : Bool) (i : Instr) (S F : List Byte) :
    (contextsAfterInstr (contextsOfStreams hasFnv S F) i).1 =
      contextsOfStreams hasFnv (streamAfterInstr .m3 S i) (streamAfterInstr .fnv F i) := by
  cases hctx : i.ctx with
  | m3 =>
    rw [contextsAfterInstr_of_m3 hctx, streamAfterInstr_of_other (c := .fnv) (by simp [hctx])]
    exact Prod.ext (m3Effect_of_stream hctx S) rfl
  | fnv =>
    rw [streamAfterInstr_of_other (c := .m3) (by simp [hctx])]
    cases hasFnv with
    | false => exact congrArg Prod.fst (contextsAfterInstr_of_absent hctx (m3Write S m3Zero))
    | true =>
      have hcontexts (F : List Byte) : contextsOfStreams true S F = (m3Write S m3Zero, some (fnv1a_32 F)) := rfl
      rw [hcontexts, hcontexts, contextsAfterInstr_of_fnv hctx, fnvEffect_of_stream hctx]

/-- R28 and R155 for one event. -/
theorem contextsAfter_of_streams (hasFnv : Bool) (S F : List Byte) (e : HostEvent) :
    (contextsAfter (contextsOfStreams hasFnv S F) e).1 =
      contextsOfStreams hasFnv (streamAfter hasFnv .m3 S e) (streamAfter hasFnv .fnv F e) := by
  cases e with
  | reset =>
    rw [contextsAfter_reset, isSome_contextsOfStreams]
    exact contexts_resetWith hasFnv
  | command w =>
    simp only [contextsAfter, isSome_contextsOfStreams, streamAfter]
    cases decode hasFnv w with
    | error e => rfl
    | ok i => exact contextsAfterInstr_of_streams hasFnv i S F

/-- R28 and R155 for any events in turn. -/
theorem contextsAfterAll_of_streams (hasFnv : Bool) (S F : List Byte) (es : List HostEvent) :
    (contextsAfterAll (contextsOfStreams hasFnv S F) es).1 =
      contextsOfStreams hasFnv (es.foldl (streamAfter hasFnv .m3) S) (es.foldl (streamAfter hasFnv .fnv) F) := by
  induction es generalizing S F with
  | nil => rfl
  | cons e es ih => rw [contextsAfterAll, contextsAfter_of_streams, ih, List.foldl_cons, List.foldl_cons]

/-- From reset on, the streams are the logical ones. -/
theorem contextsAfterAll_resetWith (hasFnv : Bool) (es : List HostEvent) :
    (contextsAfterAll (State.resetWith hasFnv).contexts es).1 =
      contextsOfStreams hasFnv (logicalStream hasFnv .m3 es) (logicalStream hasFnv .fnv es) := by
  rw [contexts_resetWith]
  exact contextsAfterAll_of_streams hasFnv [] [] es

/-- The last response of a run from reset that ends in the word of a command is what the command answers on the
contexts of the logical streams. -/
theorem getLast?_output_runEvents_concat (hasFnv : Bool) (es : List HostEvent) (i : Instr) :
    ∃ t, runEvents (es ++ [.command (encode i)]) (State.resetWith hasFnv) = .next t ∧
      t.output.getLast? = some (contextsAfterInstr
        (contextsOfStreams hasFnv (logicalStream hasFnv .m3 es) (logicalStream hasFnv .fnv es)) i).2 := by
  refine ⟨_, runEvents_eq_contexts _ (resetWith_wasReset hasFnv), ?_⟩
  simp [contextsAfterAll_append, contextsAfterAll_resetWith, contextsAfterAll, contextsAfter_command_encode]

end Sys2Proof.Machine

namespace Sys2Proof.Proofs
open Sys2Proof Sys2Proof.Machine

/-- Settles O30: the streams give the contexts before the step, and so those after it. -/
theorem everyStepKeepsTheStreamMeaning : Obligations.EveryStepKeepsTheStreamMeaning := by
  intro s S F e rest hr hin hrep
  refine ⟨_, step_eq_contexts hr hin, represents_of_contexts (hasFnv := s.hasFnv) ?_⟩
  rw [contexts_of_represents hrep]
  exact contextsAfter_of_streams s.hasFnv S F e

/-- Settles O31: a constructed context is one to which nothing was written. -/
theorem resetStandsForEmptyStreams : Obligations.ResetStandsForEmptyStreams :=
  fun hasFnv => represents_of_contexts (contexts_resetWith hasFnv)

/-- Settles O32: by induction over the events, over the contexts. -/
theorem everyReachableStateMeansItsStreams : Obligations.EveryReachableStateMeansItsStreams :=
  fun hasFnv es => ⟨_, runEvents_eq_contexts es (resetWith_wasReset hasFnv),
    represents_of_contexts (contextsAfterAll_resetWith hasFnv es)⟩

/-- Settles O33: the finish command meets the contexts of the logical streams, whose hashes are the one-shot ones. -/
theorem everyFinishIsTheOneShotHash : Obligations.EveryFinishIsTheOneShotHash := by
  refine ⟨fun hasFnv es => ?m3, fun es => ?fnv⟩
  case m3 =>
    have hword : encode .m3Finish32 = 0x0800000000 := by decide
    have hlast := getLast?_output_runEvents_concat hasFnv es .m3Finish32
    rwa [hword, response_m3Finish32, contextsOfStreams, m3Finish32_m3Write_m3Zero] at hlast
  case fnv =>
    have hword : encode .fnvFinish32 = 0x2800000000 := by decide
    have hlast := getLast?_output_runEvents_concat true es .fnvFinish32
    rwa [hword, response_fnvFinish32 rfl] at hlast

end Sys2Proof.Proofs
end

section
/-! The invariants of a step (R27, R78, R79, R171). `step_next_cases` says once what a step that goes on can be, before
the first reset too; an event either constructs the MurmurHash3 context or writes to it, and every response is `ILLEGAL`
or the result of some function on some hash. -/

namespace Sys2Proof.Machine

/-- A step that goes on is a wait, or it takes an event and goes on by the contexts alone. -/
theorem step_next_cases {s t : State} (h : step s = .next t) :
    (s.input = [] ∧ t = s) ∨
    ∃ e rest, s.input = e :: rest ∧ t = {
      m3 := (contextsAfter s.contexts e).1.1,
      fnvState := (contextsAfter s.contexts e).1.2,
      wasReset := true, input := rest,
      output := s.output ++ (contextsAfter s.contexts e).2 } := by
  cases hin : s.input with
  | nil =>
    rw [step_of_wait hin] at h
    exact .inl ⟨rfl, (Host.Outcome.next.inj h).symm⟩
  | cons e rest =>
    refine .inr ⟨e, rest, rfl, ?_⟩
    cases hr : s.wasReset with
    | true =>
      rw [step_eq_contexts hr hin] at h
      exact (Host.Outcome.next.inj h).symm
    | false =>
      cases e with
      | reset =>
        rw [step_of_reset hin] at h
        rw [← Host.Outcome.next.inj h]
        simp [State.pulseReset, contextsAfter, State.contexts]
      | command w =>
        rw [step_of_unreset hr hin] at h
        cases h

theorem contextsAfter_legal {c : Contexts} {w : CmdWord} {i : Instr} (h : decode c.2.isSome w = .ok i) :
    contextsAfter c (.command w) = ((contextsAfterInstr c i).1, [(contextsAfterInstr c i).2]) := by
  simp [contextsAfter, h]

/-- Of the MurmurHash3 context an event leaves a constructed one, or one with some bytes written, perhaps none. -/
theorem contextsAfter_m3_cases (c : Contexts) (e : HostEvent) :
    (contextsAfter c e).1.1 = m3Zero ∨ ∃ bs, (contextsAfter c e).1.1 = m3Write bs c.1 := by
  have hkept : ∃ bs, c.1 = m3Write bs c.1 := ⟨[], (m3Write_nil c.1).symm⟩
  cases e with
  | reset => exact .inl rfl
  | command w =>
    cases hd : decode c.2.isSome w with
    | error e =>
      rw [contextsAfter_illegal hd]
      exact .inr hkept
    | ok i =>
      rw [contextsAfter_legal hd]
      cases hctx : i.ctx with
      | fnv =>
        obtain ⟨m, _ | v⟩ := c
        · rw [contextsAfterInstr_of_absent hctx]
          exact .inr hkept
        · rw [contextsAfterInstr_of_fnv hctx]
          exact .inr hkept
      | m3 =>
        rw [contextsAfterInstr_of_m3 hctx, m3Effect]
        cases i.fn with
        | write => exact .inr ⟨i.bytes, rfl⟩
        | finish32 => exact .inr hkept
        | finish => exact .inr hkept
        | init => exact .inl rfl

/-- R27 over a write: both sides grow by the number of bytes, and the wrap of the count at `2^32` is one of 4. -/
theorem m3Write_len_eq_processed_mod {m : M3Context} (h : m.carry.len = m.processed.toNat % 4) (bs : List Byte) :
    (m3Write bs m).carry.len = (m3Write bs m).processed.toNat % 4 := by
  rw [m3Write_processed_toNat, m3Write_eq, mixAndBuffer_len, List.length_append, carry_length_bytes, h]
  omega

/-- Every response is `ILLEGAL` or answers what a command of some function answers to some hash. -/
theorem mem_responses_cases {c : Contexts} {e : HostEvent} {r : Response} (h : r ∈ (contextsAfter c e).2) :
    r = .illegal ∨ ∃ fn hash, r = .ok (resultOf fn hash) := by
  cases e with
  | reset => cases h
  | command w =>
    cases hd : decode c.2.isSome w with
    | error e =>
      rw [contextsAfter_illegal hd] at h
      exact .inl (List.mem_singleton.mp h)
    | ok i =>
      rw [contextsAfter_legal hd] at h
      rw [List.mem_singleton.mp h]
      cases hctx : i.ctx with
      | m3 =>
        rw [contextsAfterInstr_of_m3 hctx, m3Effect_result]
        exact .inr ⟨_, _, rfl⟩
      | fnv =>
        obtain ⟨m, _ | v⟩ := c
        · rw [contextsAfterInstr_of_absent hctx]
          exact .inl rfl
        · rw [contextsAfterInstr_of_fnv hctx, fnvEffect_result]
          exact .inr ⟨_, _, rfl⟩

/-- The bits of a word above its number are zero. -/
theorem extractLsb'_eq_zero_of_lt {w : RspWord} {k : Nat} (h : w.toNat < 2 ^ k) (n : Nat) : w.extractLsb' k n = 0 := by
  apply BitVec.eq_of_toNat_eq
  rw [BitVec.extractLsb'_toNat, Nat.shiftRight_eq_div_pow, Nat.div_eq_of_lt h]
  simp

/-- R79: the word of a result is below `2^32`. -/
theorem word_resultOf_wellFormed (fn : Fn) (hash : Word) :
    (Response.ok (resultOf fn hash)).word.extractLsb' 32 32 = 0 ∧
      (Response.ok (resultOf fn hash)).word.extractLsb' 64 2 = 0 :=
  have hlt := word_resultOf_lt fn hash
  ⟨extractLsb'_eq_zero_of_lt hlt 32, extractLsb'_eq_zero_of_lt (hlt.trans (by decide)) 2⟩

end Sys2Proof.Machine

namespace Sys2Proof.Proofs
open Sys2Proof Sys2Proof.Machine

/-- Settles O42: a wait keeps the context, and an event constructs it or writes to it. -/
theorem everyStepKeepsCountAndCarry : Obligations.EveryStepKeepsCountAndCarry := by
  intro s t hs hstep
  obtain ⟨-, rfl⟩ | ⟨e, rest, -, rfl⟩ := step_next_cases hstep
  case inl => exact hs
  case inr =>
    rw [State.CountMatchesCarry]
    obtain hzero | ⟨bs, hwrite⟩ := contextsAfter_m3_cases s.contexts e
    · rw [hzero]
      rfl
    · rw [hwrite]
      exact m3Write_len_eq_processed_mod hs bs

/-- Settles O43: a step adds at most the responses of its event. -/
theorem everyStepKeepsResponsesWellFormed : Obligations.EveryStepKeepsResponsesWellFormed := by
  intro s t hs hstep
  obtain ⟨-, rfl⟩ | ⟨e, rest, -, rfl⟩ := step_next_cases hstep
  case inl => exact hs
  case inr =>
    refine List.forall_mem_append.mpr ⟨hs, fun r hr => ?_⟩
    obtain rfl | ⟨fn, hash, rfl⟩ := mem_responses_cases hr
    · exact ⟨by decide, .inr (by decide)⟩
    · obtain ⟨hupper, hstatus⟩ := word_resultOf_wellFormed fn hash
      exact ⟨hupper, .inl hstatus⟩

/-- Settles O44: the constructed context has counted nothing and holds nothing, and no response was given. -/
theorem invariantsHoldAtReset : Obligations.InvariantsHoldAtReset :=
  fun _ => ⟨rfl, nofun⟩

end Sys2Proof.Proofs
end

section
/-! The encoder undoes the decoder (R77, R89): the command that a legal word spells has the word's own fields, so its
word is that word. A word is then legal if and only if it is the word of a command that exists, and the rows of R81 are
the words that differ at most in the lanes which the row's command takes as operands. -/

namespace Sys2Proof

/-- A word is the concatenation of its fields. -/
theorem commandWord_of_fields {w : CmdWord} {fn : Fn} (hrsv : cmdRsv w = 0) (hfn : fnCode fn = cmdFn w) :
    commandWord (ctxOfBit (cmdCtx w)) fn (cmdLen w) (cmdLane w 3) (cmdLane w 2) (cmdLane w 1) (cmdLane w 0) = w := by
  apply BitVec.eq_of_toNat_eq
  have htop : w.toNat / 2 ^ 38 = 0 := by rw [← cmdRsv_toNat, hrsv]; rfl
  rw [commandWord_toNat, ctxBit_ctxOfBit, hfn, cmdCtx_toNat, cmdFn_toNat, cmdLen_toNat]
  simp only [cmdLane_toNat]
  omega

theorem zCommand_ctx (c : Ctx) (fn : BitVec 2) : (zCommand c fn).ctx = c := by
  cases c <;> simp only [zCommand] <;> split_ifs <;> rfl

theorem fnCode_zCommand (c : Ctx) {fn : BitVec 2} (h : fn ≠ 0) : fnCode (zCommand c fn).fn = fn := by
  have hfn : fn = 1 ∨ fn = 2 ∨ fn = 3 := by revert fn; decide
  rcases hfn with rfl | rfl | rfl <;> cases c <;> rfl

section
variable (c : Ctx) (len : BitVec 3) (l0 l1 l2 l3 : Byte)

theorem writeCommand_ctx : (writeCommand c len l0 l1 l2 l3).ctx = c := by
  cases c <;> simp only [writeCommand] <;> split_ifs <;> rfl

theorem writeCommand_fn : (writeCommand c len l0 l1 l2 l3).fn = .write := by
  cases c <;> simp only [writeCommand] <;> split_ifs <;> rfl

end

/-- Lanes 0 to 3 are the bytes of the data field. -/
theorem cmdLane_toNat_eq_data (w : CmdWord) {j : Nat} (hj : j ≤ 3) :
    (cmdLane w j).toNat = (cmdData w).toNat / 2 ^ (8 * j) % 256 := by
  rw [cmdLane_toNat, cmdData_toNat]
  interval_cases j <;> omega

/-- Check 5 of R77: nothing above the lowest `n` lanes means that each of the other lanes is 0. -/
theorem cmdLane_eq_zero {w : CmdWord} {n j : Nat} (h : cmdData w >>> (8 * n) = 0) (hn : n ≤ j) (hj : j ≤ 3) :
    cmdLane w j = 0 := by
  have hnone : (cmdData w).toNat / 2 ^ (8 * n) = 0 := by
    rw [← Nat.shiftRight_eq_div_pow, ← BitVec.toNat_ushiftRight, h]
    rfl
  have hbyte : (cmdData w).toNat / 2 ^ (8 * j) % 256 = 0 :=
    by_contra fun hne => (div_ne_zero_iff_exists_byte (cmdData w).isLt).mpr ⟨j, hn, hj, hne⟩ hnone
  exact BitVec.eq_of_toNat_eq ((cmdLane_toNat_eq_data w hj).trans hbyte)

/-- The command of a legal word has the word's context, function and length, and its lanes as bytes, an absent byte
0. -/
theorem fields_of_decode {hasFnv : Bool} {w : CmdWord} {i : Instr} (h : decode hasFnv w = .ok i) :
    i.ctx = ctxOfBit (cmdCtx w) ∧ fnCode i.fn = cmdFn w ∧ i.bytes.length = (cmdLen w).toNat ∧
      ∀ j ≤ 3, i.bytes.getD j 0 = cmdLane w j := by
  obtain ⟨-, -, ⟨hfn, ⟨hlen, hdata⟩, rfl⟩ | ⟨hfn, -, hdata, rfl⟩⟩ := decode_eq_ok_iff.mp h
  · have hbytes := bytes_of_fn_ne_write (zCommand_fn_ne_write (ctxOfBit (cmdCtx w)) (cmdFn w))
    refine ⟨zCommand_ctx .., fnCode_zCommand _ hfn, by rw [hbytes, hlen]; rfl, fun j hj => ?_⟩
    rw [hbytes, cmdLane_eq_zero (n := 0) (by simpa using hdata) (Nat.zero_le j) hj]
    rfl
  · have hwrite := writeCommand_fn (ctxOfBit (cmdCtx w)) (cmdLen w)
      (cmdLane w 0) (cmdLane w 1) (cmdLane w 2) (cmdLane w 3)
    obtain ⟨-, hbytes⟩ := bytes_of_decode_write h hwrite
    refine ⟨writeCommand_ctx .., by rw [hwrite, hfn]; rfl, by rw [hbytes]; simp, fun j hj => ?_⟩
    rw [hbytes]
    by_cases hj' : j < (cmdLen w).toNat
    · simp [hj']
    · rw [cmdLane_eq_zero hdata (Nat.le_of_not_lt hj') hj]
      simp [hj']

theorem encode_of_decode {hasFnv : Bool} {w : CmdWord} {i : Instr} (h : decode hasFnv w = .ok i) : encode i = w := by
  obtain ⟨hctx, hfn, hlen, hlanes⟩ := fields_of_decode h
  obtain ⟨hrsv, -⟩ := decode_eq_ok_iff.mp h
  rw [encode, hctx, hlen, BitVec.ofNat_toNat, BitVec.setWidth_eq, hlanes 0 (by decide), hlanes 1 (by decide),
    hlanes 2 (by decide), hlanes 3 (by decide), commandWord_of_fields hrsv hfn]

/-- Check 2 of R77 lets only the commands through that exist. -/
theorem wf_of_decode {hasFnv : Bool} {w : CmdWord} {i : Instr} (h : decode hasFnv w = .ok i) : i.wf hasFnv = true := by
  obtain ⟨hctx, -⟩ := fields_of_decode h
  obtain ⟨-, hpresent, -⟩ := decode_eq_ok_iff.mp h
  by_contra hwf
  rw [← hctx] at hpresent
  exact hpresent (wf_eq_false_iff.mp (Bool.eq_false_of_not_eq_true hwf))

/-- R89: the legal words are the words of the commands that exist, each spelling its own. -/
theorem decode_eq_ok_iff_encode {hasFnv : Bool} {w : CmdWord} {i : Instr} :
    decode hasFnv w = .ok i ↔ i.wf hasFnv = true ∧ encode i = w := by
  constructor
  · exact fun h => ⟨wf_of_decode h, encode_of_decode h⟩
  · rintro ⟨hwf, rfl⟩
    exact decode_encode hwf

/-- The bytes of a legal word's command are the word's first lanes. -/
theorem bytes_of_decode {hasFnv : Bool} {w : CmdWord} {i : Instr} (h : decode hasFnv w = .ok i) :
    i.bytes = (List.range i.bytes.length).map (cmdLane w) := by
  obtain ⟨-, -, -, hlanes⟩ := fields_of_decode h
  refine List.ext_getElem (by simp) fun j hj _ => ?_
  have hj3 : j ≤ 3 := by have := length_bytes_le i; omega
  have hlane := hlanes j hj3
  rw [List.getD_eq_getElem _ _ hj] at hlane
  simpa using hlane

/-- The row of R81 of a command: its match and its mask. -/
def Instr.row : Instr → CmdWord × CmdWord
  | .m3Write0 => (0x0000000000, 0xFFFFFFFFFF)
  | .m3Write1 _ => (0x0100000000, 0xFFFFFFFF00)
  | .m3Write2 _ _ => (0x0200000000, 0xFFFFFF0000)
  | .m3Write3 _ _ _ => (0x0300000000, 0xFFFF000000)
  | .m3Write4 _ _ _ _ => (0x0400000000, 0xFF00000000)
  | .m3Finish32 => (0x0800000000, 0xFFFFFFFFFF)
  | .m3Finish => (0x1000000000, 0xFFFFFFFFFF)
  | .m3Init => (0x1800000000, 0xFFFFFFFFFF)
  | .fnvWrite0 => (0x2000000000, 0xFFFFFFFFFF)
  | .fnvWrite1 _ => (0x2100000000, 0xFFFFFFFF00)
  | .fnvWrite2 _ _ => (0x2200000000, 0xFFFFFF0000)
  | .fnvWrite3 _ _ _ => (0x2300000000, 0xFFFF000000)
  | .fnvWrite4 _ _ _ _ => (0x2400000000, 0xFF00000000)
  | .fnvFinish32 => (0x2800000000, 0xFFFFFFFFFF)
  | .fnvFinish => (0x3000000000, 0xFFFFFFFFFF)
  | .fnvInit => (0x3800000000, 0xFFFFFFFFFF)

/-- Each match is the command's word without its operands, and each mask leaves the lanes of the operands out. -/
theorem row_eq (i : Instr) :
    i.row = (commandWord i.ctx i.fn (BitVec.ofNat 3 i.bytes.length) 0 0 0 0,
      BitVec.allOnes 40 <<< (8 * i.bytes.length)) := by
  cases i <;> simp only [Instr.row, Instr.ctx, Instr.fn, Instr.bytes, List.length] <;> decide

/-- A mask without the lowest `k` bits keeps the multiple of `2^k` below the word. -/
theorem and_allOnes_shiftLeft_eq_iff {w m : CmdWord} {k : Nat} :
    w &&& (BitVec.allOnes 40 <<< k) = m ↔ 2 ^ k * (w.toNat / 2 ^ k) = m.toNat := by
  have hle : w.toNat / 2 ^ k * 2 ^ k < 2 ^ 40 := (Nat.div_mul_le_self ..).trans_lt w.isLt
  rw [← BitVec.shiftLeft_ushiftRight, ← BitVec.toNat_inj, BitVec.toNat_shiftLeft, BitVec.toNat_ushiftRight,
    Nat.shiftLeft_eq, Nat.shiftRight_eq_div_pow, Nat.mod_eq_of_lt hle, Nat.mul_comm]

/-- The first `n` lanes of a word are its lowest `8 * n` bits. -/
theorem laneSum_eq_mod (w : CmdWord) {n : Nat} (hn : n ≤ 4) {bs : List Byte}
    (hbs : bs = (List.range n).map (cmdLane w)) :
    (bs.getD 0 0).toNat + (bs.getD 1 0).toNat * 2 ^ 8 + (bs.getD 2 0).toNat * 2 ^ 16 + (bs.getD 3 0).toNat * 2 ^ 24 =
      w.toNat % 2 ^ (8 * n) := by
  subst hbs
  interval_cases n <;> simp [cmdLane_toNat, List.range_succ] <;> omega

/-- R81: a word is that of a command on the word's own lanes if and only if it has the command's match under its
mask. -/
theorem encode_eq_iff_row {w : CmdWord} {i : Instr} (h : i.bytes = (List.range i.bytes.length).map (cmdLane w)) :
    encode i = w ↔ w &&& i.row.2 = i.row.1 := by
  have hlen : i.bytes.length < 2 ^ 3 := (length_bytes_le i).trans_lt (by decide)
  have hlanes := laneSum_eq_mod w (length_bytes_le i) h
  have hsplit := Nat.div_add_mod w.toNat (2 ^ (8 * i.bytes.length))
  rw [row_eq, and_allOnes_shiftLeft_eq_iff, ← BitVec.toNat_inj, encode_toNat, commandWord_toNat, BitVec.toNat_ofNat,
    Nat.mod_eq_of_lt hlen]
  simp only [BitVec.ofNat_eq_ofNat, BitVec.toNat_ofNat] at hlanes ⊢
  omega

section
variable (w : CmdWord)

/-- The commands of R81's rows for one context, on the lanes of a word. -/
def m3RowCommands : List Instr :=
  [.m3Write0, .m3Write1 (cmdLane w 0), .m3Write2 (cmdLane w 0) (cmdLane w 1),
    .m3Write3 (cmdLane w 0) (cmdLane w 1) (cmdLane w 2),
    .m3Write4 (cmdLane w 0) (cmdLane w 1) (cmdLane w 2) (cmdLane w 3), .m3Finish32, .m3Finish, .m3Init]

def fnvRowCommands : List Instr :=
  [.fnvWrite0, .fnvWrite1 (cmdLane w 0), .fnvWrite2 (cmdLane w 0) (cmdLane w 1),
    .fnvWrite3 (cmdLane w 0) (cmdLane w 1) (cmdLane w 2),
    .fnvWrite4 (cmdLane w 0) (cmdLane w 1) (cmdLane w 2) (cmdLane w 3), .fnvFinish32, .fnvFinish, .fnvInit]

end

/-- The commands of all rows: sixteen with the FNV-1a context, eight without. -/
def rowCommands (hasFnv : Bool) (w : CmdWord) : List Instr :=
  match hasFnv with
  | true => m3RowCommands w ++ fnvRowCommands w
  | false => m3RowCommands w

theorem mem_rowCommands_iff {hasFnv : Bool} {w : CmdWord} {i : Instr} :
    i ∈ rowCommands hasFnv w ↔ i.wf hasFnv = true ∧ i.bytes = (List.range i.bytes.length).map (cmdLane w) := by
  cases hasFnv <;> cases i <;>
    simp [rowCommands, m3RowCommands, fnvRowCommands, Instr.wf, Instr.ctx, Instr.bytes, List.range_succ]

/-- R81: a word spells the command of each row that it matches, and no other. -/
theorem decode_eq_ok_iff_row {hasFnv : Bool} {w : CmdWord} {i : Instr} :
    decode hasFnv w = .ok i ↔ i ∈ rowCommands hasFnv w ∧ w &&& i.row.2 = i.row.1 := by
  rw [mem_rowCommands_iff, and_assoc]
  constructor
  · intro h
    have hbytes := bytes_of_decode h
    exact ⟨wf_of_decode h, hbytes, (encode_eq_iff_row hbytes).mp (encode_of_decode h)⟩
  · rintro ⟨hwf, hbytes, hrow⟩
    exact decode_eq_ok_iff_encode.mpr ⟨hwf, (encode_eq_iff_row hbytes).mpr hrow⟩

theorem decode_true_eq_ok_iff_row {w : CmdWord} {i : Instr}
    (h : i.bytes = (List.range i.bytes.length).map (cmdLane w)) :
    decode true w = .ok i ↔ w &&& i.row.2 = i.row.1 := by
  rw [decode_eq_ok_iff_encode, encode_eq_iff_row h]
  exact and_iff_right (wf_of_hasFnv i)

theorem exists_decode_iff_row (hasFnv : Bool) (w : CmdWord) :
    (∃ i, decode hasFnv w = .ok i) ↔ ∃ row ∈ (rowCommands hasFnv w).map Instr.row, w &&& row.2 = row.1 := by
  simp only [decode_eq_ok_iff_row, List.mem_map, exists_exists_and_eq_and]

/-- Without the FNV-1a context the words of the other one are the legal ones. -/
theorem decode_false_iff {w : CmdWord} {i : Instr} :
    decode false w = .ok i ↔ decode true w = .ok i ∧ i.ctx = .m3 := by
  have hctx : i.wf false = true ↔ i.ctx = .m3 := by cases h : i.ctx <;> simp [Instr.wf, h]
  rw [decode_eq_ok_iff_encode, decode_eq_ok_iff_encode, hctx, wf_of_hasFnv i]
  tauto

end Sys2Proof

namespace Sys2Proof.Proofs
open Sys2Proof Sys2Proof.Machine

/-- Settles O47: the fields of a legal word are those of its command; injectivity is the second law used twice. -/
theorem decodeAndEncodeAreInverse : Obligations.DecodeAndEncodeAreInverse := by
  refine fun hasFnv => ⟨fun i => decode_encode, fun w i h => ⟨wf_of_decode h, encode_of_decode h⟩, ?injective⟩
  case injective =>
    intro w w' i h h'
    rw [← encode_of_decode h, encode_of_decode h']

/-- Settles O50: each row is the match and mask of its command, whose bytes are the lanes. -/
theorem opcodeRowsAreTheLegalWords : Obligations.OpcodeRowsAreTheLegalWords := by
  intro w is l
  have row (i : Instr) (h : i.bytes = (List.range i.bytes.length).map (cmdLane w)) := decode_true_eq_ok_iff_row h
  exact ⟨row _ rfl, row _ rfl, row _ rfl, row _ rfl, row _ rfl, row _ rfl, row _ rfl, row _ rfl,
    row _ rfl, row _ rfl, row _ rfl, row _ rfl, row _ rfl, row _ rfl, row _ rfl, row _ rfl,
    exists_decode_iff_row true w, exists_decode_iff_row false w, fun _ => decode_false_iff⟩

end Sys2Proof.Proofs
end

section
/-! The seven primitives of R12 over naturals. All but the rotation are the library's; a rotation is an OR of two shifts
whose bits do not overlap, and so their sum. -/

namespace Sys2Proof.Machine

theorem toNat_shr32 (a : Word) (s : Nat) : (shr32 a s).toNat = a.toNat / 2 ^ s := by
  rw [shr32, BitVec.toNat_ushiftRight, Nat.shiftRight_eq_div_pow]

theorem toNat_shl32 (a : Word) (s : Nat) : (shl32 a s).toNat = a.toNat * 2 ^ s % 2 ^ 32 := by
  rw [shl32, BitVec.toNat_shiftLeft, Nat.shiftLeft_eq]

theorem toNat_rotl32 (a : Word) {r : Nat} (hr : r ≤ 31) :
    (rotl32 a r).toNat = a.toNat * 2 ^ r % 2 ^ 32 + a.toNat / 2 ^ (32 - r) := by
  have hwidth : 2 ^ 32 = 2 ^ (32 - r) * 2 ^ r := by rw [← Nat.pow_add, Nat.sub_add_cancel (by omega)]
  have hlow : a.toNat / 2 ^ (32 - r) < 2 ^ r := Nat.div_lt_of_lt_mul (hwidth ▸ a.isLt)
  have hhigh : a.toNat * 2 ^ r % 2 ^ 32 = (a.toNat % 2 ^ (32 - r)) <<< r := by
    rw [hwidth, Nat.mul_mod_mul_right, Nat.shiftLeft_eq]
  rw [rotl32, BitVec.toNat_rotateLeft, Nat.mod_eq_of_lt (a := r) (by omega), Nat.shiftRight_eq_div_pow,
    Nat.shiftLeft_eq, hhigh, Nat.shiftLeft_add_eq_or_of_lt hlow]

end Sys2Proof.Machine

namespace Sys2Proof.Proofs
open Sys2Proof Sys2Proof.Machine

/-- Settles O1: the shifts are a quotient and a product, and the two parts of a rotation do not overlap. -/
theorem arithmeticPrimitivesFollowTheirFormulas : Obligations.ArithmeticPrimitivesFollowTheirFormulas :=
  fun a b => ⟨BitVec.toNat_add a b, BitVec.toNat_mul a b, fun _ _ => BitVec.getLsbD_xor, fun _ _ => BitVec.getLsbD_or,
    fun s _ => toNat_shr32 a s, fun s _ => toNat_shl32 a s, fun _ _ hr => toNat_rotl32 a hr⟩

end Sys2Proof.Proofs
end

section
/-! `M3.WRITEN` (R161) by induction over the blocks: a block in front is one full beat, and at most three bytes are one
beat or none. -/

namespace Sys2Proof.Machine

theorem m3WriteN_block (b0 b1 b2 b3 : Byte) (rest : List Byte) :
    m3WriteN (b0 :: b1 :: b2 :: b3 :: rest) = .m3Write4 b0 b1 b2 b3 :: m3WriteN rest := by
  rw [m3WriteN]

theorem length_block_div (b0 b1 b2 b3 : Byte) (rest : List Byte) :
    (b0 :: b1 :: b2 :: b3 :: rest).length / 4 = rest.length / 4 + 1 := by
  simp only [List.length_cons]
  omega

theorem length_block_mod (b0 b1 b2 b3 : Byte) (rest : List Byte) :
    (b0 :: b1 :: b2 :: b3 :: rest).length % 4 = rest.length % 4 := by
  simp only [List.length_cons]
  omega

theorem length_m3WriteN (bs : List Byte) :
    (m3WriteN bs).length = bs.length / 4 + (if bs.length % 4 > 0 then 1 else 0) := by
  induction bs using blocks_induction with
  | carry c => cases c <;> simp [Carry.bytes, m3WriteN]
  | block b0 b1 b2 b3 rest ih =>
    rw [m3WriteN_block, List.length_cons, ih, length_block_div, length_block_mod]
    omega

theorem m3WriteN_getElem? (bs : List Byte) {i : Nat} (hi : i < bs.length / 4) :
    ∃ b0 b1 b2 b3, (m3WriteN bs)[i]? = some (.m3Write4 b0 b1 b2 b3) ∧
      [b0, b1, b2, b3] = (bs.drop (4 * i)).take 4 := by
  induction bs using blocks_induction generalizing i with
  | carry c =>
    rw [carry_length_bytes, Nat.div_eq_of_lt (Nat.lt_succ_of_le (carry_len_le c))] at hi
    exact absurd hi (Nat.not_lt_zero i)
  | block b0 b1 b2 b3 rest ih =>
    rw [m3WriteN_block]
    cases i with
    | zero => exact ⟨b0, b1, b2, b3, rfl, rfl⟩
    | succ i =>
      rw [length_block_div] at hi
      exact ih (Nat.lt_of_succ_lt_succ hi)

theorem getLast?_m3WriteN (bs : List Byte) (h : bs.length % 4 > 0) :
    (m3WriteN bs).getLast? = writeOf .m3 (bs.drop (4 * (bs.length / 4))) := by
  induction bs using blocks_induction with
  | carry c =>
    cases c with
    | zero => cases h
    | one | two | three => simp [Carry.bytes, m3WriteN, writeOf]
  | block b0 b1 b2 b3 rest ih =>
    rw [length_block_mod] at h
    have hbeats : m3WriteN rest ≠ [] := by
      rw [← List.length_pos_iff, length_m3WriteN, if_pos h]
      exact Nat.succ_pos _
    rw [m3WriteN_block, length_block_div, List.getLast?_cons_of_ne_nil hbeats, ih h]
    rfl

end Sys2Proof.Machine

namespace Sys2Proof.Proofs
open Sys2Proof Sys2Proof.Machine

/-- Settles O25: the cut by induction over the blocks; its run is that of any beats, which carry all the bytes. -/
theorem writeNIsOneWriteInBeats : Obligations.WriteNIsOneWriteInBeats := by
  refine ⟨fun bs => ⟨length_m3WriteN bs, fun _ => m3WriteN_getElem? bs, getLast?_m3WriteN bs, fun s hr => ?run⟩,
    by decide⟩
  case run =>
    refine ⟨_, anyCutIntoBeatsIsTheSame.1 s _ hr (m3WriteN_beats bs), ?_, rfl, rfl⟩
    rw [flatMap_bytes_m3WriteN]

end Sys2Proof.Proofs
end

section
/-! The beats of both contexts (R109, R152) as whole next states. A cell of R109's table either buffers the pending and
the new bytes together, or mixes the four in front and buffers the others. -/

namespace Sys2Proof.Machine

section
variable {i : Instr} (hctx : i.ctx = .m3) (hfn : i.fn = .write) (s : State) {h h' p : Word} {c c' : Carry}
include hctx hfn

/-- A beat by what `MixAndBuffer` makes of the pending and the new bytes. -/
theorem exec_m3Write_cell (hmix : mixAndBuffer h (c.bytes ++ i.bytes) = (h', c')) :
    exec i { s with m3 := { mixState := h, processed := p, carry := c } } =
      .next { s with
        m3 := { mixState := h', processed := add32 p (BitVec.ofNat 32 i.bytes.length), carry := c' },
        output := s.output ++ [.ok .none] } := by
  rw [exec_m3Write hctx hfn, m3Write_eq, hmix]

theorem exec_m3Write_buffered (hbytes : c.bytes ++ i.bytes = c'.bytes) :
    exec i { s with m3 := { mixState := h, processed := p, carry := c } } =
      .next { s with
        m3 := { mixState := h, processed := add32 p (BitVec.ofNat 32 i.bytes.length), carry := c' },
        output := s.output ++ [.ok .none] } :=
  exec_m3Write_cell hctx hfn s (by rw [hbytes, mixAndBuffer_carry])

theorem exec_m3Write_completed {b0 b1 b2 b3 : Byte} (hbytes : c.bytes ++ i.bytes = b0 :: b1 :: b2 :: b3 :: c'.bytes) :
    exec i { s with m3 := { mixState := h, processed := p, carry := c } } =
      .next { s with
        m3 := { mixState := blockMix h (le32 b0 b1 b2 b3),
                processed := add32 p (BitVec.ofNat 32 i.bytes.length), carry := c' },
        output := s.output ++ [.ok .none] } :=
  exec_m3Write_cell hctx hfn s (by rw [hbytes, mixAndBuffer_block, mixAndBuffer_carry])

end

theorem exec_fnvWrite_of_some {i : Instr} (hctx : i.ctx = .fnv) (hfn : i.fn = .write) {s : State} {v : Word}
    (h : s.fnvState = some v) :
    exec i s = .next { s with fnvState := some (fnvWrite i.bytes v), output := s.output ++ [.ok .none] } := by
  rw [exec_of_fnv hctx, onFnv_of_some h]
  simp [fnvEffect, hfn]

/-- R152: the number of a beat's word is that of `M3.WRITE` with the context bit set. -/
theorem encode_fnvWrite_toNat {i : Instr} (hctx : i.ctx = .fnv) (hfn : i.fn = .write) :
    (encode i).toNat = 2 ^ 37 + i.bytes.length * 2 ^ 32 +
      ((List.range i.bytes.length).map (fun j => (i.bytes.getD j 0).toNat * 2 ^ (8 * j))).sum := by
  have hctxBit : (ctxBit .fnv).toNat = 1 := rfl
  have hfnCode : (fnCode .write).toNat = 0 := rfl
  rw [sum_lanes (length_bytes_le i), encode_toNat, hctx, hfn, hctxBit, hfnCode]
  omega

/-- R84 (2): without the FNV-1a context no word with the context bit set is legal. -/
theorem decode_false_error_of_ctx {w : CmdWord} (h : w.getLsbD 37 = true) : ∃ e, decode false w = .error e := by
  have hfnv : ctxOfBit (cmdCtx w) = .fnv := by
    rw [ctxOfBit_eq_fnv_iff, cmdCtx_toNat]
    simpa [BitVec.getLsbD, Nat.testBit_eq_decide_div_mod_eq] using h
  rw [decode_error_iff_not_ok]
  rintro ⟨i, hi⟩
  obtain ⟨-, hpresent, -⟩ := decode_eq_ok_iff.mp hi
  exact hpresent ⟨hfnv, rfl⟩

end Sys2Proof.Machine

namespace Sys2Proof.Proofs
open Sys2Proof Sys2Proof.Machine

/-- Settles O9: in each cell the pending and the new bytes together are at most three, or four and the new pending
ones. -/
theorem writeBeatFollowsTheTwentyCells : Obligations.WriteBeatFollowsTheTwentyCells := by
  intro s h p a0 a1 a2 b0 b1 b2 b3 cell
  refine ⟨⟨?_, ?_, ?_, ?_, ?zero4⟩, ⟨?_, ?_, ?_, ?one3, ?one4⟩, ⟨?_, ?_, ?two2, ?two3, ?two4⟩,
    ⟨?_, ?three1, ?three2, ?three3, ?three4⟩⟩
  case zero4 | one3 | one4 | two2 | two3 | two4 | three1 | three2 | three3 | three4 =>
    exact exec_m3Write_completed rfl rfl s rfl
  all_goals exact exec_m3Write_buffered rfl rfl s rfl

/-- Settles O20: a beat is `FnvWrite` of its bytes, which steps through them, and `FnvWrite` takes any cut. -/
theorem fnvWriteStepsThroughItsBytes : Obligations.FnvWriteStepsThroughItsBytes := by
  refine ⟨fun s v b0 b1 b2 b3 h => ?beats, fun v a b => fnvWrite_append a b v, fun i => encode_fnvWrite_toNat,
    by decide, by decide⟩
  case beats =>
    exact ⟨exec_fnvWrite_of_some rfl rfl h, exec_fnvWrite_of_some rfl rfl h, exec_fnvWrite_of_some rfl rfl h,
      exec_fnvWrite_of_some rfl rfl h, exec_fnvWrite_of_some rfl rfl h⟩

/-- Settles O22: the word is illegal, and an illegal word is answered so. -/
theorem withoutFnvItsCommandsAreIllegal : Obligations.WithoutFnvItsCommandsAreIllegal := by
  intro s w rest hr hnone hin hbit
  obtain ⟨e, he⟩ := decode_false_error_of_ctx hbit
  rw [← hasFnv_eq_false.mpr hnone] at he
  exact step_of_illegal hr hin he

/-- Settles O41: each step is a wait, by induction on their number. -/
theorem waitingKeepsAllState : Obligations.WaitingKeepsAllState := by
  intro s n hin
  induction n with
  | zero => exact run_zero s
  | succ n ih => rw [run_succ_of_next n (step_of_wait hin), ih]

/-- Settles O52: each word is decoded. -/
theorem writtenOutWordsDecode : Obligations.WrittenOutWordsDecode :=
  ⟨rfl, rfl, rfl, rfl, rfl, rfl, rfl, rfl, rfl, rfl, rfl, rfl, rfl, rfl⟩

end Sys2Proof.Proofs
end

section
/-! The access table (R35) and the idempotency of R59, over the contexts. What a command changes and answers is
`contextsAfterInstr`, so each column of the table is a fact about it. -/

namespace Sys2Proof.Machine

section
variable {i : Instr} (c : Contexts)

theorem contextsAfterInstr_isSome (i : Instr) : (contextsAfterInstr c i).1.2.isSome = c.2.isSome := by
  have hword := contextsAfter_isSome c (.command (encode i))
  rwa [contextsAfter_command_encode] at hword

theorem contextsAfterInstr_of_m3Write (hctx : i.ctx = .m3) (hfn : i.fn = .write) :
    contextsAfterInstr c i = ((m3Write i.bytes c.1, c.2), .ok .none) := by
  simp [contextsAfterInstr_of_m3 hctx, m3Effect, hfn]

theorem contextsAfterInstr_keeps_fnv (h : i.ctx = .m3) : (contextsAfterInstr c i).1.2 = c.2 := by
  rw [contextsAfterInstr_of_m3 h]

theorem contextsAfterInstr_keeps_m3 (h : i.ctx = .fnv) : (contextsAfterInstr c i).1.1 = c.1 := by
  obtain ⟨m, _ | v⟩ := c
  · rw [contextsAfterInstr_of_absent h]
  · rw [contextsAfterInstr_of_fnv h]

theorem contextsAfterInstr_of_empty_write (hfn : i.fn = .write) (hbytes : i.bytes = []) :
    (contextsAfterInstr c i).1.2 = c.2 := by
  cases hctx : i.ctx with
  | m3 => exact contextsAfterInstr_keeps_fnv c hctx
  | fnv =>
    obtain ⟨m, _ | v⟩ := c
    · rw [contextsAfterInstr_of_absent hctx]
    · simp [contextsAfterInstr_of_fnv hctx, fnvEffect, hfn, hbytes]

theorem contextsAfterInstr_fnvInit {v : Word} (h : c.2 = some v) :
    (contextsAfterInstr c .fnvInit).1.2 = some fnvBasis := by
  simp [contextsAfterInstr, Instr.ctx, h, fnvEffect, Instr.fn]

variable {c} {c' : Contexts}

/-- The `o` of R35's `M3` columns: a command of that context observes it alone. -/
theorem contextsAfterInstr_observes_m3 (hctx : i.ctx = .m3) (h : c.1 = c'.1) :
    (contextsAfterInstr c i).1.1 = (contextsAfterInstr c' i).1.1 ∧
      (contextsAfterInstr c i).2 = (contextsAfterInstr c' i).2 := by
  rw [contextsAfterInstr_of_m3 hctx, contextsAfterInstr_of_m3 hctx, h]
  exact ⟨rfl, rfl⟩

theorem contextsAfterInstr_observes_fnv (hctx : i.ctx = .fnv) (h : c.2 = c'.2) :
    (contextsAfterInstr c i).1.2 = (contextsAfterInstr c' i).1.2 ∧
      (contextsAfterInstr c i).2 = (contextsAfterInstr c' i).2 := by
  obtain ⟨m, f⟩ := c
  obtain ⟨m', f'⟩ := c'
  obtain rfl : f = f' := h
  cases f with
  | none => simp only [contextsAfterInstr_of_absent hctx, and_self]
  | some v => simp only [contextsAfterInstr_of_fnv hctx, and_self]

theorem resultOf_of_no_hash {fn : Fn} (h : fn = .write ∨ fn = .init) (hash : Word) : resultOf fn hash = .none := by
  rcases h with rfl | rfl <;> rfl

/-- A `WRITE` and an `INIT` answer without observing anything but whether their context exists. -/
theorem response_m3_of_no_hash (hctx : i.ctx = .m3) (hfn : i.fn = .write ∨ i.fn = .init) :
    (contextsAfterInstr c i).2 = .ok .none := by
  rw [contextsAfterInstr_of_m3 hctx, m3Effect_result, resultOf_of_no_hash hfn]

theorem response_fnv_of_no_hash (hctx : i.ctx = .fnv) (hfn : i.fn = .write ∨ i.fn = .init) :
    (contextsAfterInstr c i).2 = if c.2.isSome then .ok .none else .illegal := by
  obtain ⟨m, _ | v⟩ := c
  · rw [contextsAfterInstr_of_absent hctx]
    rfl
  · rw [contextsAfterInstr_of_fnv hctx, fnvEffect_result, resultOf_of_no_hash hfn]
    rfl

/-- What an `INIT` leaves, it leaves again. -/
theorem contextsAfterInstr_init_init (hfn : i.fn = .init) (c : Contexts) :
    (contextsAfterInstr (contextsAfterInstr c i).1 i).1 = (contextsAfterInstr c i).1 := by
  cases hctx : i.ctx with
  | m3 => simp [contextsAfterInstr_of_m3 hctx, m3Effect, hfn]
  | fnv =>
    obtain ⟨m, _ | v⟩ := c
    · simp [contextsAfterInstr_of_absent hctx]
    · simp [contextsAfterInstr_of_fnv hctx, fnvEffect, hfn]

end

/-- `write` does not observe `processed`. -/
theorem m3Write_mixState_observes {m m' : M3Context} (hmix : m.mixState = m'.mixState) (hcarry : m.carry = m'.carry)
    (bs : List Byte) : (m3Write bs m).mixState = (m3Write bs m').mixState := by
  rw [m3Write_eq, m3Write_eq, hmix, hcarry]

/-- The new carry is what remains of the pending and the new bytes, whatever was mixed. -/
theorem m3Write_carry_observes {m m' : M3Context} (hcarry : m.carry = m'.carry) (bs : List Byte) :
    (m3Write bs m).carry = (m3Write bs m').carry := by
  rw [m3Write_eq, m3Write_eq, hcarry]
  rfl

/-- The count grows, and by less than the `2^32` that would bring it back. -/
theorem m3Write_processed_ne {bs : List Byte} (hpos : bs ≠ []) (hlen : bs.length < 2 ^ 32) (m : M3Context) :
    (m3Write bs m).processed ≠ m.processed := by
  intro h
  have hcount := m3Write_processed_toNat bs m
  have hbytes := List.length_pos_iff.mpr hpos
  have hlt := m.processed.isLt
  rw [h] at hcount
  omega

/-- The contexts that a command leaves, and its answer. -/
theorem exec_next_contexts {i : Instr} {s t : State} (h : exec i s = .next t) :
    t.m3 = (contextsAfterInstr s.contexts i).1.1 ∧ t.fnvState = (contextsAfterInstr s.contexts i).1.2 ∧
      t.output.getLast? = some (contextsAfterInstr s.contexts i).2 := by
  rw [exec_eq_contexts] at h
  rw [← Host.Outcome.next.inj h]
  exact ⟨rfl, rfl, List.getLast?_concat⟩

end Sys2Proof.Machine

namespace Sys2Proof.Proofs
open Sys2Proof Sys2Proof.Machine

/-- Settles O45: the changes of one command, those of the reset, and what of two states a command can tell apart, each
over the contexts. -/
theorem commandsTouchOnlyWhatTheAccessTableLists : Obligations.CommandsTouchOnlyWhatTheAccessTableLists := by
  refine ⟨fun i s => ⟨_, _, exec_eq_contexts i s, rfl, rfl, rfl, contextsAfterInstr_isSome s.contexts i,
    contextsAfterInstr_keeps_fnv s.contexts, contextsAfterInstr_keeps_m3 s.contexts, ?finish, ?processed, ?mixState,
    contextsAfterInstr_of_empty_write s.contexts, ?m3Init, ?fnvInit⟩, ?reset, fun i s s' t t' h h' => ?observations⟩
  case finish =>
    intro hfn
    simp only [contextsAfterInstr_of_finish hfn]
    exact ⟨rfl, rfl⟩
  case processed =>
    intro hctx hfn
    simp only [contextsAfterInstr_of_m3Write s.contexts hctx hfn]
    rfl
  case mixState =>
    intro hctx hfn hlt
    simp only [contextsAfterInstr_of_m3Write s.contexts hctx hfn]
    exact (m3Write_of_incomplete hlt).1
  case m3Init =>
    rintro rfl
    exact ⟨rfl, rfl, rfl⟩
  case fnvInit =>
    rintro v rfl hv
    exact contextsAfterInstr_fnvInit s.contexts hv
  case reset =>
    intro s rest hin
    refine ⟨_, step_of_reset hin, rfl, rfl, rfl, fun v hv => ?_⟩
    exact congrArg (Option.map fun _ => fnvBasis) hv
  case observations =>
    obtain ⟨hm, hf, hr⟩ := exec_next_contexts h
    obtain ⟨hm', hf', hr'⟩ := exec_next_contexts h'
    rw [hm, hm', hf, hf', hr, hr']
    refine ⟨fun hctx hs => ?m3, fun hctx hs => ?fnv, fun hctx hfn hmix hcarry => ?mixState,
      fun hctx hfn hcarry => ?carry, fun hctx hfn => ?m3Response, fun hctx hfn hs => ?fnvResponse⟩
    case m3 =>
      obtain ⟨hcontext, hresponse⟩ := contextsAfterInstr_observes_m3 (c := s.contexts) (c' := s'.contexts) hctx hs
      exact ⟨hcontext, congrArg some hresponse⟩
    case fnv =>
      obtain ⟨hcontext, hresponse⟩ := contextsAfterInstr_observes_fnv (c := s.contexts) (c' := s'.contexts) hctx hs
      exact ⟨hcontext, congrArg some hresponse⟩
    case mixState =>
      rw [contextsAfterInstr_of_m3Write _ hctx hfn, contextsAfterInstr_of_m3Write _ hctx hfn]
      exact m3Write_mixState_observes hmix hcarry i.bytes
    case carry =>
      rw [contextsAfterInstr_of_m3Write _ hctx hfn, contextsAfterInstr_of_m3Write _ hctx hfn]
      exact m3Write_carry_observes hcarry i.bytes
    case m3Response =>
      rw [response_m3_of_no_hash hctx hfn, response_m3_of_no_hash hctx hfn]
    case fnvResponse =>
      have hsome : s.contexts.2.isSome = s'.contexts.2.isSome := hs
      rw [response_fnv_of_no_hash hctx hfn, response_fnv_of_no_hash hctx hfn, hsome]

/-- Settles O46: a beat of one to four bytes moves the count, two beats are one write of both, and an `INIT` leaves
nothing of what it found. -/
theorem writesChangeAndInitsAreIdempotent : Obligations.WritesChangeAndInitsAreIdempotent := by
  refine ⟨fun i s hctx hfn hbytes => ?write, fun i s hfn => ?init⟩
  case write =>
    have hlen : i.bytes.length < 2 ^ 32 := (length_bytes_le i).trans_lt (by decide)
    exact ⟨_, _, exec_m3Write hctx hfn s, exec_m3Write hctx hfn _, m3Write_processed_ne hbytes hlen s.m3,
      (m3Write_append i.bytes i.bytes s.m3).symm⟩
  case init =>
    have htwice := contextsAfterInstr_init_init hfn s.contexts
    exact ⟨_, _, exec_eq_contexts i s, exec_eq_contexts i _, congrArg Prod.fst htwice, congrArg Prod.snd htwice⟩

end Sys2Proof.Proofs
end
